-- ==== Sys2Proof/Config.lean ====
section
/-! DEFINITION. What an implementation fixes (`LENW`) and the free value of an `any value` read. -/

namespace Sys2Proof

/-- The `LENW` of the machine that `State.reset` describes. 00_scope.md R7 leaves `LENW >= 1` open as
an argument of the model. DESIGN CHOICE (log entry 1): 16. The width in force is `State.lenw`, and
every statement about all states holds for every width. -/
def Config.lenw : Nat := 16

/-- The two bits that the `n`-th `any value` read of OBUF delivers (20_memory.md R41). A free value
(log entry 5): it has no body, so nothing can be proved of it. -/
opaque Config.anySample : Nat → BitVec 2

end Sys2Proof
end

