-- ==== Sys2Proof/Word.lean ====
section
/-! DEFINITION. The values of the Line Encoder: symbols, levels and polarities (00_scope.md R8).
They are names, not bit vectors: their codes are in Machine/Codes.lean. -/

namespace Sys2Proof

/-- A symbol of the bit string (R8): `space` is the symbol `0`, `mark` the symbol `1`
(glossary of 00_scope.md). -/
inductive Sym where
  | space
  | mark
  deriving DecidableEq, Repr

/-- A sample level (R8): `minus` is -1 (`-V`), `zero` is 0, `plus` is +1 (`+V`). -/
inductive Level where
  | minus
  | zero
  | plus
  deriving DecidableEq, Repr

/-- A polarity (R8): +1 or -1. It has no third value, so `POL` never reaches 0 (10_state.md R11). -/
inductive Pol where
  | plus
  | minus
  deriving DecidableEq, Repr

end Sys2Proof
end

