-- ==== Sys2Proof/Syntax.lean ====
section
/-! DEFINITION. The instructions, one constructor per row of spec/opcode_table.json, and what the
host can drive on the input ports at one clock edge (20_memory.md R36). -/

namespace Sys2Proof

/-- The 23 rows of the opcode table. The first eight are the START command (30_encoding.md R50) with
one of the eight scheme codes (R51, R52) and its length operand; the others are the encoder's steps
(R59), which have no operand. -/
inductive Instr where
  -- START rows
  | unipolar (len : Nat)
  | nrzL (len : Nat)
  | nrzI (len : Nat)
  | manchester (len : Nat)
  | b8zs (len : Nat)
  | hdb3 (len : Nat)
  | illegal6 (len : Nat)
  | illegal7 (len : Nat)
  -- step rows
  | unipolarMark
  | unipolarZero
  | nrzLMark
  | nrzLZero
  | nrzIMark
  | nrzIZero
  | manchesterMark
  | manchesterZero
  | b8zsSubst
  | b8zsMark
  | b8zsZero
  | hdb3Mark
  | hdb3Zero
  | hdb3Subst000V
  | hdb3SubstB00V
  deriving DecidableEq, Repr

/-- The operands of a START on the ports `cmd_scheme` and `cmd_len` (R50). -/
structure Command where
  scheme : BitVec 3
  len : Nat
  deriving DecidableEq, Repr

/-- A host write on the ports `ibuf_addr` and `ibuf_wdata` (40_mux_and_common.md R78). -/
structure SymbolWrite where
  addr : Nat
  data : BitVec 1
  deriving DecidableEq, Repr

/-- What stands on the input ports at one rising `clk` edge (20_memory.md R36). An absent `cmd`,
`ibufWrite` or `obufAddr` is `cmd_valid = 0`, `ibuf_we = 0`, or a host that samples no
`obuf_rdata`. `stepEnds` is no port: it says that the encoder's step in progress ends at this edge,
since a step takes a finite number of edges that the spec does not fix (70_reset_and_hazards.md
R159; log entry 3). -/
structure Edge where
  rst : Bool := false
  cmd : Option Command := none
  ibufWrite : Option SymbolWrite := none
  obufAddr : Option Nat := none
  stepEnds : Bool := false
  deriving DecidableEq, Repr

end Sys2Proof
end

