-- ==== Sys2Proof/Machine/State.lean ====
section
/-! DEFINITION. The state of one Line Encoder (10_state.md R10), its reset value (R22), and the
reasons a step can stop. -/

namespace Sys2Proof.Machine

/-- Cells by index, in one canonical form: indexes strictly rising (`Memory.wf`). A cell is the
spec's smallest unit, one symbol or one sample (20_memory.md R33). A cell that is not listed has no
value: nothing has been written there since reset (log entry 4). -/
abbrev Memory (α : Type) := List (Nat × α)

/-- The complete state (R10), with the model's own fields last. -/
structure State where
  /-- `POL` (R11). -/
  pol : Pol
  /-- `ZCNT`, two bits (R12). -/
  zcnt : BitVec 2
  /-- `BAL`, an unbounded signed integer (R13). -/
  bal : Int
  /-- `POS`, the scan position (R14). -/
  pos : Nat
  /-- `SCHEME`, register 0 (R15). -/
  scheme : BitVec 3
  /-- `LEN`, register 1 (R16). -/
  len : Nat
  /-- `STATUS` bit 0 (R18). -/
  busy : Bool
  /-- `STATUS` bit 1 (R18). -/
  done : Bool
  /-- `STATUS` bit 2 (R18). -/
  err : Bool
  /-- `STATUS` bits 4:3 (R18). -/
  errcode : BitVec 2
  /-- `IBUF` (20_memory.md R30). -/
  ibuf : Memory Sym
  /-- `OBUF` (20_memory.md R31). -/
  obuf : Memory Level
  /-- MODEL'S OWN: the width `LENW` (00_scope.md R7); no step changes it (log entry 1). -/
  lenw : Nat
  /-- MODEL'S OWN: what the host drives at the coming clock edges, oldest first (log entry 2). -/
  edges : List Edge
  /-- MODEL'S OWN: the port `obuf_rdata`, as the last host read left it (log entry 5). -/
  obufRdata : BitVec 2
  /-- MODEL'S OWN: how many reads have been given a free value (log entry 5). -/
  anyCount : Nat
  deriving DecidableEq, Repr

/-- The state after reset (R22) of a machine with `lenw`-bit lengths. -/
def State.resetOf (lenw : Nat) : State :=
  { pol := .plus, zcnt := 0, bal := 0, pos := 0, scheme := 0, len := 0, busy := false, done := false,
    err := false, errcode := 0, ibuf := [], obuf := [], lenw := lenw, edges := [], obufRdata := 0,
    anyCount := 0 }

/-- The machine right after reset (R22, R150): idle, with a host that drives nothing. -/
def State.reset : State := State.resetOf Config.lenw

/-- Faults: accesses outside a buffer's valid range, or a mux position with no unit. The spec says
that none of them can happen (20_memory.md R37, 40_mux_and_common.md R72), and none happens in a
state that meets `State.Inv`. All are safe (log entry 14). -/
inductive Fault where
  /-- Raised by `memRead`: `MemRead(IBUF, i, m)` requires `i + m <= LEN` (00_scope.md R9). Safe. -/
  | ibufOutOfRange
  /-- Raised by `commit`: `MemWrite(OBUF, k, m, L)` requires `k + m <= 2 * LEN` (R9), and a block
  cannot start below cell 0. Safe. -/
  | obufOutOfRange
  /-- Raised by `stepKey`: `BUSY = 1` with scheme 6 or 7, which the mux has no unit for (R72). Safe. -/
  | noSchemeUnit
  deriving DecidableEq, Repr

/-- Refusals: situations the spec marks `refuse`, "the spec gives the situation no meaning" (00_scope.md
R9), and values that the ports cannot carry. -/
inductive Refusal where
  /-- Raised by `exec` for an instruction without a meaning; no instruction is left so. Safe. -/
  | notModelled (mnemonic : String)
  /-- Raised by `start`: START with a valid scheme and `cmd_len = 0` (60_exceptions.md R132). Safe. -/
  | emptyFrame
  /-- Raised by `start` and `readSymbol`: a frame needs an IBUF cell that the host has not written
  since reset (R132; 20_memory.md R30). Safe. -/
  | ibufUnwritten
  /-- Raised by `hostWriteIbuf`: an IBUF cell is written while `BUSY = 1` (R132; 20_memory.md R40).
  Safe. -/
  | ibufWriteWhileBusy
  /-- Raised by `fetchEdge`: an edge holds a value wider than its port (20_memory.md R36); no host can
  drive it. Safe. -/
  | pinsOutOfWidth
  deriving DecidableEq, Repr

end Sys2Proof.Machine
end

