-- ==== Sys2Proof/Machine/Flags.lean ====
section
/-! DEFINITION. The STATUS flags (10_state.md R18): how the run loop, START and the error entry
compute them, and how the host sees them. -/

namespace Sys2Proof.Machine

/-- Scheme codes 0 to 5 select a scheme; 6 and 7 are invalid (30_encoding.md R51, R52). -/
def validScheme (scheme : BitVec 3) : Bool := decide (scheme.toNat < 6)

/-- `BUSY` after a step that leaves the scan position at `pos` (40_mux_and_common.md R71). -/
def busyAfter (pos len : Nat) : Bool := decide (pos ≠ len)

/-- `DONE` after a step that leaves the scan position at `pos` (R71): set by the last step, else as it
was. -/
def doneAfter (done : Bool) (pos len : Nat) : Bool := done || decide (pos = len)

/-- The `ERRCODE` of InvalidSchemeId (60_exceptions.md R130). -/
def invalidSchemeIdCode : BitVec 2 := 1

/-- The `STATUS` register, bits 4:3 `ERRCODE`, 2 `ERR`, 1 `DONE`, 0 `BUSY` (R18). -/
def State.statusWord (s : State) : BitVec 5 :=
  s.errcode ++ (BitVec.ofBool s.err ++ (BitVec.ofBool s.done ++ BitVec.ofBool s.busy))

/-- A read of the registers by number, in a bus wrapper: 0 `SCHEME`, 1 `LEN`, 2 `CTRL`, which reads as
0, and 3 `STATUS` (R15 to R18). Reading has no side effect. -/
def State.readRegister (s : State) (number : BitVec 2) : Nat :=
  match number.toFin with
  | 0 => s.scheme.toNat
  | 1 => s.len
  | 2 => 0
  | 3 => s.statusWord.toNat

/-- The output ports that are wires from registers (20_memory.md R36). -/
structure Outputs where
  stBusy : Bool
  stDone : Bool
  stErr : Bool
  stErrcode : BitVec 2
  stScheme : BitVec 3
  stLen : Nat
  deriving DecidableEq, Repr

/-- The host's read of status (40_mux_and_common.md R80): the flags, `SCHEME` and `LEN` as they are. -/
def State.outputs (s : State) : Outputs :=
  { stBusy := s.busy, stDone := s.done, stErr := s.err, stErrcode := s.errcode,
    stScheme := s.scheme, stLen := s.len }

end Sys2Proof.Machine
end

