-- ==== Sys2Proof/Machine/Codes.lean ====
section
/-! DEFINITION. Codes of symbols, levels and polarities (30_encoding.md R53 to R55), the arithmetic
on them (00_scope.md R8), and the doubling of levels into samples (R9, R56). -/

namespace Sys2Proof

/-- The bit of a symbol (R53). -/
def Sym.code : Sym → BitVec 1
  | .space => 0
  | .mark => 1

/-- The symbol of a bit (R53). -/
def Sym.ofCode (b : BitVec 1) : Sym :=
  if b = 1 then .mark else .space

/-- The two's-complement code of a level (R54); `10` is the code of none. -/
def Level.code : Level → BitVec 2
  | .zero => 0b00
  | .plus => 0b01
  | .minus => 0b11

/-- A level as the integer it is (R8). -/
def Level.toInt : Level → Int
  | .minus => -1
  | .zero => 0
  | .plus => 1

/-- A polarity as the integer it is (R8). -/
def Pol.toInt : Pol → Int
  | .plus => 1
  | .minus => -1

/-- A polarity as a level: `Pol` is a subset of `Level` (R8). -/
def Pol.level : Pol → Level
  | .plus => .plus
  | .minus => .minus

/-- The flip `-p`, "multiply by -1" (R8; 40_mux_and_common.md R73). -/
def Pol.flip : Pol → Pol
  | .plus => .minus
  | .minus => .plus

/-- The internal code of a polarity (R55): 0 is +1, 1 is -1. -/
def Pol.code : Pol → BitVec 1
  | .plus => 0
  | .minus => 1

/-- `dbl(L)` (R9): every element twice in place. -/
def dbl : List Level → List Level
  | [] => []
  | l :: ls => l :: l :: dbl ls

end Sys2Proof
end

