-- ==== Sys2Proof/Machine/Operands.lean ====
section
/-! DEFINITION. The operand forms of a step: cells of a buffer, `MemRead` of IBUF, the zero-run window
of B8ZS, and the step keys (30_encoding.md R57, R58). -/

namespace Sys2Proof.Machine

/-- Why reading an operand stops. -/
inductive Stop where
  | fault (r : Fault)
  | refused (r : Refusal)
  deriving DecidableEq, Repr

/-- The value of one cell; `none` where nothing has been written since reset. -/
def Memory.read {α : Type} : Memory α → Nat → Option α
  | [], _ => none
  | (k, v) :: rest, a => if k = a then some v else Memory.read rest a

/-- `MAXLEN = 2^LENW - 1` (00_scope.md R7), the depth of IBUF. -/
def State.maxLen (s : State) : Nat := 2 ^ s.lenw - 1

/-- `IBUF[i]` inside a frame: `MemRead(IBUF, i, 1)[0]` (R9). It requires `i + 1 <= LEN` and a cell
that the host has written since reset (20_memory.md R30). -/
def readSymbol (s : State) (i : Nat) : Except Stop Sym :=
  if i < s.len then
    match s.ibuf.read i with
    | some b => .ok b
    | none => .error (.refused .ibufUnwritten)
  else .error (.fault .ibufOutOfRange)

/-- `MemRead(IBUF, i, m)` (R9): the `m` symbols from index `i`, the first at index `i`. -/
def memRead (s : State) (i : Nat) : Nat → Except Stop (List Sym)
  | 0 => .ok []
  | m + 1 =>
    match readSymbol s i with
    | .error e => .error e
    | .ok b =>
      match memRead s (i + 1) m with
      | .error e => .error e
      | .ok bs => .ok (b :: bs)

/-- The first `n` cells of IBUF have been written by the host since reset (20_memory.md R30). -/
def State.frameWritten (s : State) (n : Nat) : Bool :=
  (List.range n).all fun i => (s.ibuf.read i).isSome

/-- Symbols read as bits of one number, the first symbol the most significant (R57). -/
def symbolsValue (bs : List Sym) : Nat :=
  bs.foldl (fun n b => 2 * n + b.code.toNat) 0

/-- The guard `ge8` of the zero-run detector: "at least 8 remaining symbols exist" (R57,
43_b8zs.md R101). `ZeroRun8(POS)` is this bit with the eight symbols of the window all 0, which is the
key `1 0000 0000`: the detector is combinational and has no state. -/
def windowFits (s : State) : Bool := decide (s.pos + 8 ≤ s.len)

/-- The key of the one-symbol schemes: `IBUF[POS]` (R59). -/
def symbolKey (s : State) : Except Stop (BitVec 9) :=
  match readSymbol s s.pos with
  | .error e => .error e
  | .ok b => .ok (BitVec.ofNat 9 b.code.toNat)

/-- The B8ZS key `{ge8, w0..w7}` (R57). When `ge8 = 0` only the symbol at `POS` is read, and the seven
don't-care bits are given as 0 (log entry 12). -/
def b8zsKey (s : State) : Except Stop (BitVec 9) :=
  if windowFits s then
    match memRead s s.pos 8 with
    | .error e => .error e
    | .ok w => .ok (BitVec.ofNat 9 (256 + symbolsValue w))
  else
    match readSymbol s s.pos with
    | .error e => .error e
    | .ok b => .ok (BitVec.ofNat 9 (128 * b.code.toNat))

/-- The HDB3 key `{sym, z3, neg}` (R58). -/
def hdb3Key (s : State) : Except Stop (BitVec 9) :=
  match readSymbol s s.pos with
  | .error e => .error e
  | .ok b => .ok (BitVec.ofNat 9
      (4 * b.code.toNat + (if s.zcnt = 3 then 2 else 0) + (if s.bal < 0 then 1 else 0)))

/-- The step key of the scheme that `SCHEME` selects (R59). -/
def stepKey (s : State) : Except Stop (BitVec 9) :=
  match s.scheme.toFin with
  | 0 => symbolKey s
  | 1 => symbolKey s
  | 2 => symbolKey s
  | 3 => symbolKey s
  | 4 => b8zsKey s
  | 5 => hdb3Key s
  | 6 => .error (.fault .noSchemeUnit)
  | 7 => .error (.fault .noSchemeUnit)

end Sys2Proof.Machine
end

