-- ==== Sys2Proof/Machine/Ops.lean ====
section
/-! DEFINITION. The named operations: writing cells, the three emissions, the mux that commits a
step, START with its error entry, reset, and the host's buffer accesses. -/

namespace Sys2Proof.Machine

/-- Write one cell, keeping the indexes strictly rising. -/
def Memory.write {α : Type} : Memory α → Nat → α → Memory α
  | [], a, v => [(a, v)]
  | (k, w) :: rest, a, v =>
    if a < k then (a, v) :: (k, w) :: rest
    else if a = k then (a, v) :: rest
    else (k, w) :: Memory.write rest a v

/-- Write a list of values to consecutive cells, the first at index `a`. -/
def Memory.writeList {α : Type} (m : Memory α) (a : Nat) : List α → Memory α
  | [] => m
  | v :: vs => Memory.writeList (m.write a v) (a + 1) vs

/-- The canonical form: indexes strictly rising. No listed cell can equal what an unlisted one reads
as, since an unlisted cell has no value. -/
def Memory.wf {α : Type} : Memory α → Bool
  | [] => true
  | (k, _) :: rest => rest.all (fun c => decide (k < c.1)) && Memory.wf rest

/-! Output write primitives (40_mux_and_common.md R74 to R76). -/

/-- What a step writes to OBUF: the levels, and the index of the first cell. The index is an integer
because a block of HDB3 starts three bit-times before `POS`. -/
structure ObufWrite where
  cell : Int
  levels : List Level
  deriving DecidableEq, Repr

/-- `EmitHeld(i, l)` (R74). -/
def emitHeld (i : Int) (l : Level) : ObufWrite := { cell := 2 * i, levels := [l, l] }

/-- `EmitPair(i, a, b)` (R75). -/
def emitPair (i : Int) (a b : Level) : ObufWrite := { cell := 2 * i, levels := [a, b] }

/-- `EmitBlock(i0, P)` (R76). -/
def emitBlock (i0 : Int) (pattern : List Level) : ObufWrite :=
  { cell := 2 * i0, levels := dbl pattern }

/-! The step of a scheme unit and the multi-scheme mux (R71, R72, R77). -/

/-- What the mux takes from the selected unit (R72): "the OBUF write (address, count, data), the new
values of `POL`, `ZCNT`, `BAL`, and the `POS` increment". -/
structure UnitOutput where
  write : ObufWrite
  pol : Pol
  zcnt : BitVec 2
  bal : Int
  stride : Nat
  deriving DecidableEq, Repr

/-- The output of a unit that emits, keeps its registers and advances one symbol. -/
def State.plainOutput (s : State) (w : ObufWrite) : UnitOutput :=
  { write := w, pol := s.pol, zcnt := s.zcnt, bal := s.bal, stride := 1 }

/-- The state after a step: all its writes together (R77), and the flags of the run loop (R71). -/
def State.committed (s : State) (u : UnitOutput) : State :=
  { s with
    obuf := s.obuf.writeList u.write.cell.toNat u.write.levels
    pol := u.pol
    zcnt := u.zcnt
    bal := u.bal
    pos := s.pos + u.stride
    busy := busyAfter (s.pos + u.stride) s.len
    done := doneAfter s.done (s.pos + u.stride) s.len }

/-- The cells of a `MemWrite` exist: `k + m <= 2 * LEN` (00_scope.md R9), and none lies below cell 0. -/
def writeInRange (s : State) (w : ObufWrite) : Bool :=
  decide (0 ≤ w.cell) && decide (w.cell + w.levels.length ≤ 2 * s.len)

/-- Complete a step: the checked write, and everything else that lands with it. -/
def commit (u : UnitOutput) (s : State) : Host.Outcome State Fault Refusal :=
  if writeInRange s u.write then .next (s.committed u) else .fault .obufOutOfRange

/-- The multi-scheme mux (R72): the unit of scheme `unit` acts when `BUSY = 1` and `SCHEME` selects
it; otherwise whatever it computes is discarded, and the encoder changes no state (R71; log entry 13). -/
def mux (unit : BitVec 3) (u : UnitOutput) (s : State) : Host.Outcome State Fault Refusal :=
  if s.busy && s.scheme == unit then commit u s else .next s

/-! START and the error entry (R70; 60_exceptions.md R131). -/

/-- Entering InvalidSchemeId (60_exceptions.md R131), the one exception: the operands are latched, the
flags report the error, and nothing else is written. The next accepted START returns from it (R135). -/
def State.raiseInvalidSchemeId (s : State) (scheme : BitVec 3) (len : Nat) : State :=
  { s with
    scheme := scheme
    len := len
    err := true
    errcode := invalidSchemeIdCode
    done := false
    busy := false }

/-- An accepted START of a frame (40_mux_and_common.md R70; initial values of 10_state.md R21). It
clears `ERR` and `ERRCODE`, which is the return from the exception (60_exceptions.md R135). -/
def State.startFrame (s : State) (scheme : BitVec 3) (len : Nat) : State :=
  { s with
    scheme := scheme
    len := len
    pos := 0
    pol := .plus
    zcnt := 0
    bal := 0
    busy := true
    done := false
    err := false
    errcode := 0 }

/-- START (R70): dropped while `BUSY = 1` (70_reset_and_hazards.md R158); the scheme is examined before
the length and IBUF (60_exceptions.md R133). -/
def start (scheme : BitVec 3) (len : Nat) (s : State) : Host.Outcome State Fault Refusal :=
  if s.busy then .next s
  else if !validScheme scheme then .next (s.raiseInvalidSchemeId scheme len)
  else if len = 0 then .refused .emptyFrame
  else if s.frameWritten len then .next (s.startFrame scheme len)
  else .refused .ibufUnwritten

/-! Reset (70_reset_and_hazards.md R150). -/

/-- `rst = 1` at an edge: the registers take the values of 10_state.md R22, and the contents of both
buffers are unspecified afterwards, so no cell is left with a value (log entry 15). The input ports
and the model's own fields are not the block's to reset. -/
def State.hardReset (s : State) : State :=
  { s with
    pol := .plus
    zcnt := 0
    bal := 0
    pos := 0
    scheme := 0
    len := 0
    busy := false
    done := false
    err := false
    errcode := 0
    ibuf := []
    obuf := [] }

/-! Host accesses (40_mux_and_common.md R78, R79). -/

/-- The host's write of IBUF (R78): refused while `BUSY = 1` (20_memory.md R40). Index `MAXLEN` names no
cell, and a write to it is ignored (R36; log entry 9). -/
def hostWriteIbuf (w : SymbolWrite) (s : State) : Except Stop State :=
  if w.addr < s.maxLen then
    if s.busy then .error (.refused .ibufWriteWhileBusy)
    else .ok { s with ibuf := s.ibuf.write w.addr (Sym.ofCode w.data) }
  else .ok s

/-- The sample that OBUF holds for the host at index `k`: `y[k]` while `DONE = 1` and `k < 2 * LEN`
(20_memory.md R41). `none` is `any value`. -/
def State.sampleAt (s : State) (k : Nat) : Option Level :=
  if s.done && decide (k < 2 * s.len) then s.obuf.read k else none

/-- The host's read of OBUF (R79): the code of the sample on `obuf_rdata`, or a free value where the
spec says `any value`. Nothing else changes but the count of free values (log entry 5). -/
def hostReadObuf (k : Nat) (s : State) : State :=
  match s.sampleAt k with
  | some l => { s with obufRdata := l.code }
  | none => { s with obufRdata := Config.anySample s.anyCount, anyCount := s.anyCount + 1 }

end Sys2Proof.Machine
end

