-- ==== Sys2Proof/Machine/B8zs.lean ====
section
/-! DEFINITION. The steps of the B8ZS unit (43_b8zs.md): substitution logic, mark and zero path. -/

namespace Sys2Proof.Machine

/-- The substitution pattern `[0,0,0,V,0,0,0,-V]` (R102). -/
def b8zsPattern (v : Pol) : List Level :=
  [.zero, .zero, .zero, v.level, .zero, .zero, .zero, v.flip.level]

/-- B8ZS.SUBST (R102): the block from the old `POL`, one flip, eight symbols consumed. -/
def execB8zsSubst (s : State) : Host.Outcome State Fault Refusal :=
  mux 4 { s.plainOutput (emitBlock s.pos (b8zsPattern s.pol)) with pol := s.pol.flip, stride := 8 } s

/-- B8ZS.MARK (R103): emit, then flip. -/
def execB8zsMark (s : State) : Host.Outcome State Fault Refusal :=
  mux 4 { s.plainOutput (emitHeld s.pos s.pol.level) with pol := s.pol.flip } s

/-- B8ZS.ZERO (R104): 0 held. -/
def execB8zsZero (s : State) : Host.Outcome State Fault Refusal :=
  mux 4 (s.plainOutput (emitHeld s.pos .zero)) s

end Sys2Proof.Machine
end

