-- ==== Sys2Proof/Machine/Hdb3.lean ====
section
/-! DEFINITION. The steps of the HDB3 unit (44_hdb3.md): zero-run counter, DC-balance tracker and
violation insertion. -/

namespace Sys2Proof.Machine

/-- HDB3.MARK (R111): emit, then flip; `BAL` takes the pre-flip value. -/
def execHdb3Mark (s : State) : Host.Outcome State Fault Refusal :=
  mux 5
    { s.plainOutput (emitHeld s.pos s.pol.level) with
      bal := s.bal + s.pol.toInt, pol := s.pol.flip, zcnt := 0 } s

/-- HDB3.ZERO (R112): 0 held, one more zero counted. -/
def execHdb3Zero (s : State) : Host.Outcome State Fault Refusal :=
  mux 5 { s.plainOutput (emitHeld s.pos .zero) with zcnt := s.zcnt + 1 } s

/-- HDB3.SUBST-000V (R113): the violation `-POL` at the fourth zero, over the last four bit-times. -/
def execHdb3Subst000V (s : State) : Host.Outcome State Fault Refusal :=
  mux 5
    { s.plainOutput (emitBlock (s.pos - 3) [.zero, .zero, .zero, s.pol.flip.level]) with
      bal := s.bal - s.pol.toInt, pol := s.pol.flip, zcnt := 0 } s

/-- The level of both pulses of a B00V, `v = (if -BAL > 0 then -1 else +1)` (R114). It is -1 whenever
the step is selected (R116). -/
def b00vPulse (bal : Int) : Pol := if -bal > 0 then .minus else .plus

/-- HDB3.SUBST-B00V (R114): `[b,0,0,v]` with `b = v`; `BAL` gains `b - v`, and `POL` is set to `-v`. -/
def execHdb3SubstB00V (s : State) : Host.Outcome State Fault Refusal :=
  let v := b00vPulse s.bal
  let b := v
  mux 5
    { s.plainOutput (emitBlock (s.pos - 3) [b.level, .zero, .zero, v.level]) with
      bal := s.bal + b.toInt - v.toInt, pol := v.flip, zcnt := 0 } s

end Sys2Proof.Machine
end

