-- ==== Sys2Proof/Machine/Manchester.lean ====
section
/-! DEFINITION. The steps of the MANCHESTER unit (42_manchester.md). -/

namespace Sys2Proof.Machine

/-- MANCHESTER.MARK (R95): high, then low. -/
def execManchesterMark (s : State) : Host.Outcome State Fault Refusal :=
  mux 3 (s.plainOutput (emitPair s.pos .plus .minus)) s

/-- MANCHESTER.ZERO (R95): low, then high. -/
def execManchesterZero (s : State) : Host.Outcome State Fault Refusal :=
  mux 3 (s.plainOutput (emitPair s.pos .minus .plus)) s

end Sys2Proof.Machine
end

