-- ==== Sys2Proof/Machine/Start.lean ====
section
/-! DEFINITION. The eight START rows (30_encoding.md R51, R52; 40_mux_and_common.md R70). -/

namespace Sys2Proof.Machine

/-- `START unipolar, len` (R70, scheme code 0). -/
def execUnipolar (len : Nat) (s : State) : Host.Outcome State Fault Refusal := start 0 len s

/-- `START nrz-l, len` (R70, scheme code 1). -/
def execNrzL (len : Nat) (s : State) : Host.Outcome State Fault Refusal := start 1 len s

/-- `START nrz-i, len` (R70, scheme code 2). -/
def execNrzI (len : Nat) (s : State) : Host.Outcome State Fault Refusal := start 2 len s

/-- `START manchester, len` (R70, scheme code 3). -/
def execManchester (len : Nat) (s : State) : Host.Outcome State Fault Refusal := start 3 len s

/-- `START b8zs, len` (R70, scheme code 4). -/
def execB8zs (len : Nat) (s : State) : Host.Outcome State Fault Refusal := start 4 len s

/-- `START hdb3, len` (R70, scheme code 5). -/
def execHdb3 (len : Nat) (s : State) : Host.Outcome State Fault Refusal := start 5 len s

/-- `START 6, len`: InvalidSchemeId (60_exceptions.md R131). -/
def execIllegal6 (len : Nat) (s : State) : Host.Outcome State Fault Refusal := start 6 len s

/-- `START 7, len`: InvalidSchemeId (60_exceptions.md R131). -/
def execIllegal7 (len : Nat) (s : State) : Host.Outcome State Fault Refusal := start 7 len s

end Sys2Proof.Machine
end

