-- ==== Sys2Proof/Machine/UnipolarNrz.lean ====
section
/-! DEFINITION. The steps of the UNIPOLAR, NRZ-L and NRZ-I units (41_unipolar_nrz.md). -/

namespace Sys2Proof.Machine

/-- UNIPOLAR.MARK (R85): +1 held. -/
def execUnipolarMark (s : State) : Host.Outcome State Fault Refusal :=
  mux 0 (s.plainOutput (emitHeld s.pos .plus)) s

/-- UNIPOLAR.ZERO (R85): 0 held. -/
def execUnipolarZero (s : State) : Host.Outcome State Fault Refusal :=
  mux 0 (s.plainOutput (emitHeld s.pos .zero)) s

/-- NRZ-L.MARK (R86): -1 held, the inverted mapping. -/
def execNrzLMark (s : State) : Host.Outcome State Fault Refusal :=
  mux 1 (s.plainOutput (emitHeld s.pos .minus)) s

/-- NRZ-L.ZERO (R86): +1 held. -/
def execNrzLZero (s : State) : Host.Outcome State Fault Refusal :=
  mux 1 (s.plainOutput (emitHeld s.pos .plus)) s

/-- NRZ-I.MARK (R87): flip first, then emit the new level. -/
def execNrzIMark (s : State) : Host.Outcome State Fault Refusal :=
  mux 2 { s.plainOutput (emitHeld s.pos s.pol.flip.level) with pol := s.pol.flip } s

/-- NRZ-I.ZERO (R87): hold the level. -/
def execNrzIZero (s : State) : Host.Outcome State Fault Refusal :=
  mux 2 (s.plainOutput (emitHeld s.pos s.pol.level)) s

end Sys2Proof.Machine
end

