-- ==== Sys2Proof/Machine/Dispatch.lean ====
section
/-! DEFINITION. One arm per constructor of Instr: the meaning of each row of the opcode table. -/

namespace Sys2Proof.Machine

/-- The meaning of each instruction. -/
def exec (i : Instr) (s : State) : Host.Outcome State Fault Refusal :=
  match i with
  | .unipolar len => Sys2Proof.Machine.execUnipolar len s
  | .nrzL len => Sys2Proof.Machine.execNrzL len s
  | .nrzI len => Sys2Proof.Machine.execNrzI len s
  | .manchester len => Sys2Proof.Machine.execManchester len s
  | .b8zs len => Sys2Proof.Machine.execB8zs len s
  | .hdb3 len => Sys2Proof.Machine.execHdb3 len s
  | .illegal6 len => Sys2Proof.Machine.execIllegal6 len s
  | .illegal7 len => Sys2Proof.Machine.execIllegal7 len s
  | .unipolarMark => Sys2Proof.Machine.execUnipolarMark s
  | .unipolarZero => Sys2Proof.Machine.execUnipolarZero s
  | .nrzLMark => Sys2Proof.Machine.execNrzLMark s
  | .nrzLZero => Sys2Proof.Machine.execNrzLZero s
  | .nrzIMark => Sys2Proof.Machine.execNrzIMark s
  | .nrzIZero => Sys2Proof.Machine.execNrzIZero s
  | .manchesterMark => Sys2Proof.Machine.execManchesterMark s
  | .manchesterZero => Sys2Proof.Machine.execManchesterZero s
  | .b8zsSubst => Sys2Proof.Machine.execB8zsSubst s
  | .b8zsMark => Sys2Proof.Machine.execB8zsMark s
  | .b8zsZero => Sys2Proof.Machine.execB8zsZero s
  | .hdb3Mark => Sys2Proof.Machine.execHdb3Mark s
  | .hdb3Zero => Sys2Proof.Machine.execHdb3Zero s
  | .hdb3Subst000V => Sys2Proof.Machine.execHdb3Subst000V s
  | .hdb3SubstB00V => Sys2Proof.Machine.execHdb3SubstB00V s

end Sys2Proof.Machine
end

