-- ==== Sys2Proof/WellFormed.lean ====
section
/-! DEFINITION. Which instructions and port values a Line Encoder with `lenw`-bit lengths can hold. -/

namespace Sys2Proof

/-- An instruction fits its command word: the length operand is `LENW` bits wide (30_encoding.md
R50). A length of 0 fits: it is the START that has no meaning (60_exceptions.md R132). -/
def Instr.wf (lenw : Nat) : Instr → Bool
  | .unipolar len => decide (len < 2 ^ lenw)
  | .nrzL len => decide (len < 2 ^ lenw)
  | .nrzI len => decide (len < 2 ^ lenw)
  | .manchester len => decide (len < 2 ^ lenw)
  | .b8zs len => decide (len < 2 ^ lenw)
  | .hdb3 len => decide (len < 2 ^ lenw)
  | .illegal6 len => decide (len < 2 ^ lenw)
  | .illegal7 len => decide (len < 2 ^ lenw)
  | .unipolarMark => true
  | .unipolarZero => true
  | .nrzLMark => true
  | .nrzLZero => true
  | .nrzIMark => true
  | .nrzIZero => true
  | .manchesterMark => true
  | .manchesterZero => true
  | .b8zsSubst => true
  | .b8zsMark => true
  | .b8zsZero => true
  | .hdb3Mark => true
  | .hdb3Zero => true
  | .hdb3Subst000V => true
  | .hdb3SubstB00V => true

/-- `cmd_len` is `LENW` bits wide (20_memory.md R36). -/
def Command.fits (lenw : Nat) (c : Command) : Bool :=
  decide (c.len < 2 ^ lenw)

/-- `ibuf_addr` is `LENW` bits wide (R36), so it has one value, `MAXLEN`, that names no cell. -/
def SymbolWrite.fits (lenw : Nat) (w : SymbolWrite) : Bool :=
  decide (w.addr < 2 ^ lenw)

/-- `obuf_addr` is `LENW + 1` bits wide (R36). -/
def obufAddrFits (lenw k : Nat) : Bool :=
  decide (k < 2 ^ (lenw + 1))

/-- Every value on the ports fits its port. -/
def Edge.fits (lenw : Nat) (e : Edge) : Bool :=
  e.cmd.all (Command.fits lenw) && e.ibufWrite.all (SymbolWrite.fits lenw) &&
    e.obufAddr.all (obufAddrFits lenw)

end Sys2Proof
end

