-- ==== Sys2Proof/Decode.lean ====
section
/-! DEFINITION. The decoder of the command word (30_encoding.md R50 to R52), the selection of a step
by its key (R59), and the encoder written from the same tables. -/

namespace Sys2Proof

/-- Why bits name no instruction. -/
inductive DecodeError where
  /-- A command word has `LENW + 3` bits (R50); the value has more. -/
  | wordTooWide
  /-- Scheme codes 6 and 7 name no scheme (R52), so no step key belongs to them. -/
  | noSuchScheme
  /-- The key has bits above the width of its scheme's key (R57 to R59). -/
  | keyTooWide
  deriving DecidableEq, Repr

/-- The table of scheme codes (R51), with the two illegal codes (R52). -/
def startInstr (scheme : BitVec 3) (len : Nat) : Instr :=
  match scheme.toFin with
  | 0 => .unipolar len
  | 1 => .nrzL len
  | 2 => .nrzI len
  | 3 => .manchester len
  | 4 => .b8zs len
  | 5 => .hdb3 len
  | 6 => .illegal6 len
  | 7 => .illegal7 len

/-- The scheme field of a command word, bits [2:0] (R50). -/
def wordScheme (w : Nat) : BitVec 3 := BitVec.ofNat 3 w

/-- The length field of a command word, bits [LENW+2:3] (R50). -/
def wordLen (w : Nat) : Nat := w / 8

/-- The command word `{len, scheme}` (R50). -/
def commandWord (scheme : BitVec 3) (len : Nat) : Nat := len * 8 + scheme.toNat

/-- Decode a command word of a machine with `lenw`-bit lengths (R50, R62(1)). -/
def decode (lenw w : Nat) : Except DecodeError Instr :=
  if w < 2 ^ (lenw + 3) then .ok (startInstr (wordScheme w) (wordLen w)) else .error .wordTooWide

/-- One row of the step-selection table: a 1 bit of `mask` is a bit that the pattern fixes, a 0 bit
is an `x`. -/
structure StepRow where
  scheme : BitVec 3
  mask : BitVec 9
  pattern : BitVec 9
  instr : Instr
  deriving DecidableEq, Repr

/-- The fifteen rows of R59, in its order. One-symbol keys (schemes 0 to 3) and the three-bit key of
HDB3 (R58) stand in the low bits. -/
def stepRows : List StepRow :=
  [ ⟨0, 0b000000001, 0b000000001, .unipolarMark⟩,
    ⟨0, 0b000000001, 0b000000000, .unipolarZero⟩,
    ⟨1, 0b000000001, 0b000000001, .nrzLMark⟩,
    ⟨1, 0b000000001, 0b000000000, .nrzLZero⟩,
    ⟨2, 0b000000001, 0b000000001, .nrzIMark⟩,
    ⟨2, 0b000000001, 0b000000000, .nrzIZero⟩,
    ⟨3, 0b000000001, 0b000000001, .manchesterMark⟩,
    ⟨3, 0b000000001, 0b000000000, .manchesterZero⟩,
    ⟨4, 0b111111111, 0b100000000, .b8zsSubst⟩,
    ⟨4, 0b010000000, 0b010000000, .b8zsMark⟩,
    ⟨4, 0b010000000, 0b000000000, .b8zsZero⟩,
    ⟨5, 0b000000100, 0b000000100, .hdb3Mark⟩,
    ⟨5, 0b000000110, 0b000000000, .hdb3Zero⟩,
    ⟨5, 0b000000111, 0b000000010, .hdb3Subst000V⟩,
    ⟨5, 0b000000111, 0b000000011, .hdb3SubstB00V⟩ ]

/-- The width of a scheme's step key: 1 symbol, the 9 bits of R57, or the 3 bits of R58. -/
def keyWidth (scheme : BitVec 3) : Nat :=
  match scheme.toFin with
  | 4 => 9
  | 5 => 3
  | _ => 1

/-- A row matches a key of its scheme. -/
def StepRow.matchesKey (scheme : BitVec 3) (key : BitVec 9) (r : StepRow) : Bool :=
  r.scheme == scheme && (key &&& r.mask) == r.pattern

/-- Step selection (R59): "the first that matches is taken". -/
def decodeStep (scheme : BitVec 3) (key : BitVec 9) : Except DecodeError Instr :=
  if 2 ^ keyWidth scheme ≤ key.toNat then .error .keyTooWide
  else
    match stepRows.find? (StepRow.matchesKey scheme key) with
    | some r => .ok r.instr
    | none => .error .noSuchScheme

/-- Where an instruction's bits stand: in a command word, or in the step key of a scheme. -/
inductive Code where
  | command (word : Nat)
  | key (scheme : BitVec 3) (bits : BitVec 9)
  deriving DecidableEq, Repr

/-- Decode either kind of bits. -/
def decodeCode (lenw : Nat) : Code → Except DecodeError Instr
  | .command w => decode lenw w
  | .key scheme bits => decodeStep scheme bits

/-- The bits of an instruction, from R51, R52 and R59. An `x` of a key pattern is written 0. -/
def encode : Instr → Code
  | .unipolar len => .command (commandWord 0 len)
  | .nrzL len => .command (commandWord 1 len)
  | .nrzI len => .command (commandWord 2 len)
  | .manchester len => .command (commandWord 3 len)
  | .b8zs len => .command (commandWord 4 len)
  | .hdb3 len => .command (commandWord 5 len)
  | .illegal6 len => .command (commandWord 6 len)
  | .illegal7 len => .command (commandWord 7 len)
  | .unipolarMark => .key 0 0b1
  | .unipolarZero => .key 0 0b0
  | .nrzLMark => .key 1 0b1
  | .nrzLZero => .key 1 0b0
  | .nrzIMark => .key 2 0b1
  | .nrzIZero => .key 2 0b0
  | .manchesterMark => .key 3 0b1
  | .manchesterZero => .key 3 0b0
  | .b8zsSubst => .key 4 0b100000000
  | .b8zsMark => .key 4 0b010000000
  | .b8zsZero => .key 4 0b000000000
  | .hdb3Mark => .key 5 0b100
  | .hdb3Zero => .key 5 0b000
  | .hdb3Subst000V => .key 5 0b010
  | .hdb3SubstB00V => .key 5 0b011

/-- What the decoder reads from an opcode-table word `w` of `nbits` bits, every bit above being 0: a
command word of the machine that `State.reset` describes. Step rows have no bits in the table: they
are selected by a key (`decodeStep`). -/
def decodeTableWord (nbits w : Nat) : Option Instr :=
  match decode Config.lenw (w % 2 ^ nbits) with
  | .ok i => some i
  | .error _ => none

/-! The words of the table, written out from R51, R52 and R59: every constructor's decoding. A START
word is `{len, scheme}` with a length of 5 (`101`) or 0. -/

theorem decode_word_unipolar : decode 16 0b101_000 = .ok (.unipolar 5) := by decide
theorem decode_word_nrzL : decode 16 0b101_001 = .ok (.nrzL 5) := by decide
theorem decode_word_nrzI : decode 16 0b101_010 = .ok (.nrzI 5) := by decide
theorem decode_word_manchester : decode 16 0b101_011 = .ok (.manchester 5) := by decide
theorem decode_word_b8zs : decode 16 0b101_100 = .ok (.b8zs 5) := by decide
theorem decode_word_hdb3 : decode 16 0b101_101 = .ok (.hdb3 5) := by decide
theorem decode_word_illegal6 : decode 16 0b101_110 = .ok (.illegal6 5) := by decide
theorem decode_word_illegal7 : decode 16 0b000_111 = .ok (.illegal7 0) := by decide
theorem decode_key_unipolarMark : decodeStep 0b000 0b1 = .ok .unipolarMark := by decide
theorem decode_key_unipolarZero : decodeStep 0b000 0b0 = .ok .unipolarZero := by decide
theorem decode_key_nrzLMark : decodeStep 0b001 0b1 = .ok .nrzLMark := by decide
theorem decode_key_nrzLZero : decodeStep 0b001 0b0 = .ok .nrzLZero := by decide
theorem decode_key_nrzIMark : decodeStep 0b010 0b1 = .ok .nrzIMark := by decide
theorem decode_key_nrzIZero : decodeStep 0b010 0b0 = .ok .nrzIZero := by decide
theorem decode_key_manchesterMark : decodeStep 0b011 0b1 = .ok .manchesterMark := by decide
theorem decode_key_manchesterZero : decodeStep 0b011 0b0 = .ok .manchesterZero := by decide
theorem decode_key_b8zsSubst : decodeStep 0b100 0b1_0000_0000 = .ok .b8zsSubst := by decide
theorem decode_key_b8zsMark : decodeStep 0b100 0b1_1000_0000 = .ok .b8zsMark := by decide
theorem decode_key_b8zsZero : decodeStep 0b100 0b1_0000_0001 = .ok .b8zsZero := by decide
theorem decode_key_b8zsZero_tail : decodeStep 0b100 0b0_0000_0000 = .ok .b8zsZero := by decide
theorem decode_key_hdb3Mark : decodeStep 0b101 0b1_1_1 = .ok .hdb3Mark := by decide
theorem decode_key_hdb3Zero : decodeStep 0b101 0b0_0_1 = .ok .hdb3Zero := by decide
theorem decode_key_hdb3Subst000V : decodeStep 0b101 0b0_1_0 = .ok .hdb3Subst000V := by decide
theorem decode_key_hdb3SubstB00V : decodeStep 0b101 0b0_1_1 = .ok .hdb3SubstB00V := by decide

end Sys2Proof
end

