-- ==== Sys2Proof/Machine/Fetch.lean ====
section
/-! DEFINITION. What happens at a clock edge, and which instruction it runs: step selection
(30_encoding.md R59, R62), the input ports (20_memory.md R36), and what the ports do to the state
before an instruction runs. -/

namespace Sys2Proof.Machine

/-- What a fetch finds: no instruction, only a new state; or an instruction and the state it runs in. -/
inductive Fetched where
  | idle (s : State)
  | run (i : Instr) (s : State)
  deriving DecidableEq, Repr

/-- Select the encoder's step from the step key (R59, R62(2)). -/
def selectStep (s : State) : Except Stop Instr :=
  match stepKey s with
  | .error e => .error e
  | .ok key =>
    match decodeStep s.scheme key with
    | .ok i => .ok i
    | .error _ => .error (.fault .noSchemeUnit)

/-- The encoder's turn while `BUSY = 1` (40_mux_and_common.md R71). -/
def fetchStep (s : State) : Except Stop Fetched :=
  match selectStep s with
  | .error e => .error e
  | .ok i => .ok (.run i s)

/-- A START on the command ports, if there is one (10_state.md R17). -/
def fetchCommand (c : Option Command) (s : State) : Except Stop Fetched :=
  match c with
  | none => .ok (.idle s)
  | some c =>
    match decode s.lenw (commandWord c.scheme c.len) with
    | .ok i => .ok (.run i s)
    | .error _ => .error (.refused .pinsOutOfWidth)

/-- The host's read of OBUF at this edge, of the state before the edge (log entry 10). -/
def edgeRead (e : Edge) (s : State) : State :=
  match e.obufAddr with
  | none => s
  | some k => hostReadObuf k s

/-- The host's write of IBUF at this edge. -/
def edgeWrite (e : Edge) (s : State) : Except Stop State :=
  match e.ibufWrite with
  | none => .ok s
  | some w => hostWriteIbuf w s

/-- One rising `clk` edge. `rst` has priority over everything (70_reset_and_hazards.md R150). An IBUF
write comes before a START on the same edge (40_mux_and_common.md R78). While `BUSY = 1` as the edge
finds it, the encoder's step is run if it ends here, and a START is dropped (R158; log entry 11). -/
def fetchEdge (e : Edge) (s : State) : Except Stop Fetched :=
  if !e.fits s.lenw then .error (.refused .pinsOutOfWidth)
  else if e.rst then .ok (.idle (edgeRead e s).hardReset)
  else
    match edgeWrite e (edgeRead e s) with
    | .error r => .error r
    | .ok t => if t.busy && e.stepEnds then fetchStep t else fetchCommand e.cmd t

/-- The next thing the machine does: the oldest pending edge, or, where the host drives nothing, the
encoder's step while `BUSY = 1` and nothing at all while `BUSY = 0` (R71; 60_exceptions.md R142). -/
def fetch (s : State) : Except Stop Fetched :=
  match s.edges with
  | [] => if s.busy then fetchStep s else .ok (.idle s)
  | e :: rest => fetchEdge e { s with edges := rest }

/-- The edge that carries one START and nothing else (R50). -/
def startEdge (scheme : BitVec 3) (len : Nat) : Edge :=
  { cmd := some { scheme := scheme, len := len } }

/-- Give every IBUF cell below `n` that has no value the symbol `0`: the load of a frame of zeros that
`State.withFetchWord` stands for (log entry 8). -/
def fillUnwritten (m : Memory Sym) : Nat → Memory Sym
  | 0 => m
  | n + 1 =>
    match Memory.read m n with
    | some _ => fillUnwritten m n
    | none => fillUnwritten (m.write n .space) n

end Sys2Proof.Machine
end

