-- ==== Sys2Proof/Machine/Step.lean ====
section
/-! DEFINITION. One step of the machine, and the state whose next step runs a given command word. -/

namespace Sys2Proof.Machine

/-- Fetch, then run what was fetched. -/
def step (s : State) : Host.Outcome State Fault Refusal :=
  match fetch s with
  | .ok (.idle t) => .next t
  | .ok (.run i t) => exec i t
  | .error (.fault r) => .fault r
  | .error (.refused r) => .refused r

/-- `s` with the START of the command word `w` on its command ports at the next clock edge, and the
frame that this START needs loaded (log entry 8). -/
def State.withFetchWord (s : State) (nbits w : Nat) : State :=
  { s with
    edges := startEdge (wordScheme (w % 2 ^ nbits)) (wordLen (w % 2 ^ nbits)) :: s.edges
    ibuf := fillUnwritten s.ibuf (wordLen (w % 2 ^ nbits)) }

end Sys2Proof.Machine
end

