-- ==== Sys2Proof/Machine/Reference.lean ====
section
/-! DEFINITION. The function `Encode(sch, s)` that a frame computes (40_mux_and_common.md R82), written
scheme by scheme from the source's own sentences, without the step machine: lists of symbols in,
lists of samples out. The step machine is the definition; that the two agree is a statement for the
provers. -/

namespace Sys2Proof.Machine

/-- One held level: two identical samples (R74). -/
def held (l : Level) : List Level := [l, l]

/-- UNIPOLAR (41_unipolar_nrz.md R85, R88): a map symbol by symbol. -/
def unipolarSamples : Sym → List Level
  | .mark => held .plus
  | .space => held .zero

/-- NRZ-L (R86, R88): a map symbol by symbol. -/
def nrzLSamples : Sym → List Level
  | .mark => held .minus
  | .space => held .plus

/-- MANCHESTER (42_manchester.md R95, R96): a map symbol by symbol. -/
def manchesterSamples : Sym → List Level
  | .mark => [.plus, .minus]
  | .space => [.minus, .plus]

/-- NRZ-I (41_unipolar_nrz.md R87) from the level `p`: "level flips iff the current bit is `1`". -/
def nrzISamples (p : Pol) : List Sym → List Level
  | [] => []
  | .mark :: bits => held p.flip.level ++ nrzISamples p.flip bits
  | .space :: bits => held p.level ++ nrzISamples p bits

/-- `n` symbols `0` come next. -/
def startsWithZeros (n : Nat) (bits : List Sym) : Bool :=
  decide (n ≤ bits.length) && (bits.take n).all (· == .space)

/-- B8ZS (43_b8zs.md R100 to R106) with the polarity `p` for the next mark. `fuel` is at least the
number of symbols. -/
def b8zsSamples : Nat → Pol → List Sym → List Level
  | 0, _, _ => []
  | _ + 1, _, [] => []
  | fuel + 1, p, b :: bits =>
    if startsWithZeros 8 (b :: bits) then
      dbl [.zero, .zero, .zero, p.level, .zero, .zero, .zero, p.flip.level] ++
        b8zsSamples fuel p.flip (bits.drop 7)
    else
      match b with
      | .mark => held p.level ++ b8zsSamples fuel p.flip bits
      | .space => held .zero ++ b8zsSamples fuel p bits

/-- The number of substitution blocks of a B8ZS frame (R106: greedy, from the scan position). -/
def b8zsBlocks : Nat → List Sym → Nat
  | 0, _ => 0
  | _ + 1, [] => 0
  | fuel + 1, b :: bits =>
    if startsWithZeros 8 (b :: bits) then 1 + b8zsBlocks fuel (bits.drop 7)
    else b8zsBlocks fuel bits

/-- The number of marks in a bit string. -/
def markCount (bits : List Sym) : Nat := bits.count .mark

/-- The polarity after `n` flips from +1: +1 if `n` is even, -1 if it is odd (41_unipolar_nrz.md R89,
43_b8zs.md R108). -/
def polAfterFlips (n : Nat) : Pol := if n % 2 = 0 then .plus else .minus

/-- HDB3 (44_hdb3.md R111 to R114, R121) with the polarity `p` for the next mark and the balance `bal`,
in the look-ahead form of R121: a run of zeros is cut into substitutions of four from its start, and
the rest of it are plain zeros. `fuel` is at least the number of symbols. -/
def hdb3Samples : Nat → Pol → Int → List Sym → List Level
  | 0, _, _, _ => []
  | _ + 1, _, _, [] => []
  | fuel + 1, p, bal, b :: bits =>
    if startsWithZeros 4 (b :: bits) then
      if bal < 0 then
        dbl [.minus, .zero, .zero, .minus] ++ hdb3Samples fuel .plus bal (bits.drop 3)
      else
        dbl [.zero, .zero, .zero, p.flip.level] ++
          hdb3Samples fuel p.flip (bal - p.toInt) (bits.drop 3)
    else
      match b with
      | .mark => held p.level ++ hdb3Samples fuel p.flip (bal + p.toInt) bits
      | .space => held .zero ++ hdb3Samples fuel p bal bits

/-- What `Encode(sch, s)` is (R82): a list of samples, the error InvalidSchemeId, or `refuse`, with the
name under which `start` refuses the same input. -/
inductive Encoding where
  | samples (y : List Level)
  | invalidSchemeId
  | refused (why : Refusal)
  deriving DecidableEq, Repr

/-- The sample list of one of the six schemes, on any bit string (R82). Every frame starts with polarity
+1 and balance 0 (10_state.md R21). `none` for scheme codes 6 and 7, which have no scheme function. -/
def schemeSamples (scheme : BitVec 3) (bits : List Sym) : Option (List Level) :=
  match scheme.toFin with
  | 0 => some (bits.flatMap unipolarSamples)
  | 1 => some (bits.flatMap nrzLSamples)
  | 2 => some (nrzISamples .plus bits)
  | 3 => some (bits.flatMap manchesterSamples)
  | 4 => some (b8zsSamples bits.length .plus bits)
  | 5 => some (hdb3Samples bits.length .plus 0 bits)
  | 6 => none
  | 7 => none

/-- `Encode(sch, s)` (R82). The scheme is examined before the bit string (60_exceptions.md R133); an empty
bit string is `refuse` and has no output (R132). -/
def encodeReference (scheme : BitVec 3) (bits : List Sym) : Encoding :=
  match schemeSamples scheme bits with
  | none => .invalidSchemeId
  | some y => if bits.isEmpty then .refused .emptyFrame else .samples y

/-- IBUF holds the bit string, the first symbol at index 0 (20_memory.md R30, R32). -/
abbrev holdsSymbols (m : Memory Sym) (bits : List Sym) : Prop :=
  ∀ i < bits.length, m.read i = bits[i]?

/-- OBUF holds the sample list, the first sample at index 0 (20_memory.md R31, R32). -/
abbrev holdsSamples (m : Memory Level) (samples : List Level) : Prop :=
  ∀ k < samples.length, m.read k = samples[k]?

end Sys2Proof.Machine
end

