-- ==== Sys2Proof/Safety.lean ====
section
/-! DEFINITION. What the statements are said in: the state invariant of the machine, the frame of a
step, and the situations that statements take as hypotheses. -/

namespace Sys2Proof.Machine

/-- The first `n` cells hold a value. -/
abbrev cellsWritten {α : Type} (m : Memory α) (n : Nat) : Prop :=
  ∀ i < n, (m.read i).isSome = true

/-- Every listed index is below `n`. -/
abbrev cellsBelow {α : Type} (m : Memory α) (n : Nat) : Prop :=
  ∀ c ∈ m, c.1 < n

/-! ## The invariant of every state that a run reaches, part by part -/

/-- Widths and buffers: `LENW >= 1` (00_scope.md R7), `LEN` fits (10_state.md R16), both buffers are in
canonical form and hold only cells that exist (20_memory.md R30, R31). -/
abbrev State.buffersOk (s : State) : Prop :=
  1 ≤ s.lenw ∧ s.len < 2 ^ s.lenw ∧ s.ibuf.wf = true ∧ s.obuf.wf = true ∧
    cellsBelow s.ibuf s.maxLen ∧ cellsBelow s.obuf (2 * s.maxLen)

/-- Flags: at most one of `BUSY`, `DONE`, `ERR` is 1, and `ERRCODE` is 1 with `ERR` and 0 without
(10_state.md R18); an error is a latched invalid scheme (60_exceptions.md R131). -/
abbrev State.flagsOk (s : State) : Prop :=
  (s.busy = true → s.done = false ∧ s.err = false) ∧
  (s.done = true → s.err = false) ∧
  (s.err = true → s.errcode = 1 ∧ 6 ≤ s.scheme.toNat) ∧
  (s.err = false → s.errcode = 0)

/-- A running frame: the scheme is valid, the scan position is below `LEN` (40_mux_and_common.md R71),
the frame's symbols are all written (20_memory.md R30), and so are the samples of the bit-times behind
the scan position (R81). -/
abbrev State.frameOk (s : State) : Prop :=
  s.busy = true → s.scheme.toNat < 6 ∧ s.pos < s.len ∧ cellsWritten s.ibuf s.len ∧
    cellsWritten s.obuf (2 * s.pos)

/-- A complete frame: the scan has ended at `LEN` and every sample is written (R81). -/
abbrev State.doneOk (s : State) : Prop :=
  s.done = true → s.scheme.toNat < 6 ∧ 1 ≤ s.len ∧ s.pos = s.len ∧ cellsWritten s.obuf (2 * s.len)

/-- "A register a scheme does not write keeps the value START gave it" (10_state.md R19): `ZCNT` and
`BAL` outside HDB3, `POL` in UNIPOLAR, NRZ-L and MANCHESTER. -/
abbrev State.unusedOk (s : State) : Prop :=
  (s.busy = true ∨ s.done = true) →
    (s.scheme ≠ 5 → s.zcnt = 0 ∧ s.bal = 0) ∧
    (s.scheme = 0 ∨ s.scheme = 1 ∨ s.scheme = 3 → s.pol = .plus)

/-- The sharp range of `BAL` (44_hdb3.md R119). -/
abbrev balanceOk (pol : Pol) (bal : Int) : Prop :=
  0 ≤ bal ∨ (pol = .minus ∧ bal = -1) ∨ (pol = .plus ∧ bal = -1) ∨ (pol = .plus ∧ bal = -2)

/-- `BAL` in an HDB3 frame: `|BAL| <= POS` and the sharp range (R119). -/
abbrev State.hdb3BalanceOk (s : State) : Prop :=
  (s.busy = true ∨ s.done = true) → s.scheme = 5 →
    s.bal.natAbs ≤ s.pos ∧ balanceOk s.pol s.bal

/-- `ZCNT` in a running HDB3 frame (44_hdb3.md R120): it is at most `POS`, the last `ZCNT` symbols are
`0`, and their sample cells hold 0. -/
abbrev State.hdb3CountOk (s : State) : Prop :=
  s.busy = true → s.scheme = 5 →
    s.zcnt.toNat ≤ s.pos ∧
    (∀ j < s.zcnt.toNat, s.ibuf.read (s.pos - 1 - j) = some .space) ∧
    (∀ k < 2 * s.zcnt.toNat, s.obuf.read (2 * s.pos - 1 - k) = some .zero)

/-- The invariant: it holds at reset, and every step keeps it. -/
abbrev State.Inv (s : State) : Prop :=
  s.buffersOk ∧ s.flagsOk ∧ s.frameOk ∧ s.doneOk ∧ s.unusedOk ∧ s.hdb3BalanceOk ∧ s.hdb3CountOk

/-! ## Frames -/

/-- What no instruction changes: the width, the input ports, the host's read port, the input buffer
(20_memory.md R30: the encoder "only reads it, never writes it"). -/
abbrev State.sameOutside (s t : State) : Prop :=
  t.lenw = s.lenw ∧ t.edges = s.edges ∧ t.obufRdata = s.obufRdata ∧ t.anyCount = s.anyCount ∧
    t.ibuf = s.ibuf

/-- What no step of the encoder changes besides: the command registers, `ERR` and `ERRCODE`. -/
abbrev State.sameCommand (s t : State) : Prop :=
  t.scheme = s.scheme ∧ t.len = s.len ∧ t.err = s.err ∧ t.errcode = s.errcode

/-- OBUF reads as before outside the cells `lo` to `hi - 1`. -/
abbrev sameSamplesOutside (m m' : Memory Level) (lo hi : Nat) : Prop :=
  ∀ k, k < lo ∨ hi ≤ k → m'.read k = m.read k

/-- A step has moved the scan position by `d`, and the run loop has set the flags (R71): on the step that
makes `POS = LEN`, `BUSY` is cleared and `DONE` set, else both are as they were. -/
abbrev State.advancedBy (s t : State) (d : Nat) : Prop :=
  t.pos = s.pos + d ∧
  (s.pos + d = s.len → t.busy = false ∧ t.done = true) ∧
  (s.pos + d ≠ s.len → t.busy = true ∧ t.done = s.done)

/-- All that a step of the encoder leaves alone, with the run loop's part: the frame of a step that
advances `d` symbols and writes the sample cells `lo` to `hi - 1`. -/
abbrev State.stepFrame (s t : State) (d lo hi : Nat) : Prop :=
  s.sameOutside t ∧ s.sameCommand t ∧ s.advancedBy t d ∧ sameSamplesOutside s.obuf t.obuf lo hi

/-! ## Situations -/

/-- The encoder is in a frame of scheme `unit`, at a scan position inside it: a step of that unit can
run (R71, R72). -/
abbrev State.inFrame (s : State) (unit : BitVec 3) : Prop :=
  s.busy = true ∧ s.scheme = unit ∧ s.pos < s.len

/-- With no edge pending, the symbol at `POS` is `b`: what the step key of a one-symbol scheme reads
(30_encoding.md R59). -/
abbrev State.atSymbol (s : State) (b : Sym) : Prop :=
  s.edges = [] ∧ s.ibuf.read s.pos = some b

/-- `ZeroRun8(POS)` (43_b8zs.md R101). -/
abbrev State.zeroRunAhead (s : State) : Prop :=
  s.pos + 8 ≤ s.len ∧ ∀ j < 8, s.ibuf.read (s.pos + j) = some .space

/-- The window of the zero-run detector, where it is read at all, has been written (R101). -/
abbrev State.windowWritten (s : State) : Prop :=
  s.pos + 8 ≤ s.len → ∀ j < 8, (s.ibuf.read (s.pos + j)).isSome = true

/-- The state from which a frame of `bits` under `scheme` can be started at the next edge: the encoder is
idle, IBUF holds the bit string, and nothing is pending on the ports but this START
(70_reset_and_hazards.md R152). Nothing is said of the other registers or of OBUF. -/
abbrev State.readyFor (s : State) (scheme : BitVec 3) (bits : List Sym) : Prop :=
  s.busy = false ∧ bits ≠ [] ∧ bits.length < 2 ^ s.lenw ∧ holdsSymbols s.ibuf bits ∧
    s.edges = [startEdge scheme bits.length]

/-- After `j` steps from `s` the frame is still running: `BUSY = 1` and `DONE = 0` (10_state.md R18). -/
abbrev State.stillRunningAfter (s : State) (j : Nat) : Prop :=
  ∃ u, Host.Core.run Sys2Proof.core j s = .next u ∧ u.busy = true ∧ u.done = false

/-- The frame that `s` is in, or that its first step starts, ends at exactly the `k`-th step: `t` is the
state after `k` steps and holds a complete frame of `n` symbols, and after every smaller number of
steps (but for `s` itself) the frame is still running. -/
abbrev State.runsToDone (s : State) (k : Nat) (t : State) (n : Nat) : Prop :=
  Host.Core.run Sys2Proof.core k s = .next t ∧ t.done = true ∧ t.busy = false ∧ t.err = false ∧
    t.len = n ∧ t.pos = n ∧ ∀ j, 1 ≤ j → j < k → s.stillRunningAfter j

/-- The scheme code of the unit that a step row belongs to (R59); `none` for a START row. -/
def unitOf : Instr → Option (BitVec 3)
  | .unipolar _ => none
  | .nrzL _ => none
  | .nrzI _ => none
  | .manchester _ => none
  | .b8zs _ => none
  | .hdb3 _ => none
  | .illegal6 _ => none
  | .illegal7 _ => none
  | .unipolarMark => some 0
  | .unipolarZero => some 0
  | .nrzLMark => some 1
  | .nrzLZero => some 1
  | .nrzIMark => some 2
  | .nrzIZero => some 2
  | .manchesterMark => some 3
  | .manchesterZero => some 3
  | .b8zsSubst => some 4
  | .b8zsMark => some 4
  | .b8zsZero => some 4
  | .hdb3Mark => some 5
  | .hdb3Zero => some 5
  | .hdb3Subst000V => some 5
  | .hdb3SubstB00V => some 5

/-- The host keeps its duties at the next edge (70_reset_and_hazards.md R152, R156): the values fit the
ports, no IBUF cell is written while `BUSY = 1`, and an accepted START of a valid scheme has a length of
at least 1 and all its symbols written, counting a write on the same edge. An edge with `rst = 1` has
no other duty. -/
def State.dutiesKept (s : State) : Prop :=
  match s.edges with
  | [] => True
  | e :: _ =>
    e.fits s.lenw = true ∧
    (e.rst = false →
      (∀ w, e.ibufWrite = some w → w.addr < s.maxLen → s.busy = false) ∧
      (∀ c, e.cmd = some c → s.busy = false → c.scheme.toNat < 6 →
        1 ≤ c.len ∧ ∀ i < c.len, (s.ibuf.read i).isSome = true ∨ ∃ w, e.ibufWrite = some w ∧ w.addr = i))

end Sys2Proof.Machine
end

