-- ==== Sys2Proof/Certificates/Slice0/Obligations.lean ====
section
/-! DEFINITION. The statements for the provers. `t` is always the state after; `s.stepFrame t d lo hi`
says that a step advanced `d` symbols, set the run loop's flags, wrote no sample cell outside `lo` to
`hi - 1`, and left every other register, buffer and port alone. -/

open Sys2Proof Sys2Proof.Machine

/-! ## START and the error entry -/

/-- 10_state.md R21, for each of the six schemes: an accepted START gives the four working registers their
initial values, latches SCHEME and LEN, sets BUSY, clears DONE, ERR and ERRCODE, and changes nothing
else (40_mux_and_common.md R70). -/
def Obligations.AcceptedStartInitialisesFrame : Prop :=
  ∀ (s : State) (len : Nat), s.busy = false → 1 ≤ len → cellsWritten s.ibuf len →
    ∀ p ∈ [(Instr.unipolar len, (0 : BitVec 3)), (.nrzL len, 1), (.nrzI len, 2), (.manchester len, 3),
        (.b8zs len, 4), (.hdb3 len, 5)],
      exec p.1 s = .next { s with
        pos := 0, pol := .plus, zcnt := 0, bal := 0, scheme := p.2, len := len
        busy := true, done := false, err := false, errcode := 0 }

/-- 60_exceptions.md R131: an accepted START with scheme 6 or 7 enters InvalidSchemeId, whatever its length
and whatever IBUF holds (R133). -/
def Obligations.InvalidSchemeIdEntry : Prop :=
  ∀ (s : State) (len : Nat), s.busy = false →
    exec (.illegal6 len) s = .next { s with
      scheme := 6, len := len, err := true, errcode := 1, done := false, busy := false } ∧
    exec (.illegal7 len) s = .next { s with
      scheme := 7, len := len, err := true, errcode := 1, done := false, busy := false }

/-- 70_reset_and_hazards.md R158: a START of any of the eight codes while `BUSY = 1` changes nothing, and
an edge with a START on it does what it would do without the START. That this holds also at the edge at
which the last step of the frame ends is the model's reading (log entry 11: a START sees `BUSY` as the
edge finds it); the end of a step as a bit of an edge is the model's (log entry 3). -/
def Obligations.StartWhileBusyIsDropped : Prop :=
  ∀ (s : State), s.busy = true →
    (∀ len, ∀ i ∈ [Instr.unipolar len, .nrzL len, .nrzI len, .manchester len, .b8zs len, .hdb3 len,
        .illegal6 len, .illegal7 len], exec i s = .next s) ∧
    (∀ (e : Edge) (rest : List Edge), e.fits s.lenw = true →
      step { s with edges := e :: rest } = step { s with edges := { e with cmd := none } :: rest })

/-- 60_exceptions.md R132: the three malformed inputs are refused: an empty frame, a frame with an IBUF cell
that has not been written since reset, and an IBUF cell written while `BUSY = 1`. -/
def Obligations.MalformedInputIsRefused : Prop :=
  (∀ (s : State), s.busy = false →
    ∀ i ∈ [Instr.unipolar 0, .nrzL 0, .nrzI 0, .manchester 0, .b8zs 0, .hdb3 0],
      exec i s = .refused .emptyFrame) ∧
  (∀ (s : State) (len j : Nat), s.busy = false → j < len → s.ibuf.read j = none →
    ∀ i ∈ [Instr.unipolar len, .nrzL len, .nrzI len, .manchester len, .b8zs len, .hdb3 len],
      exec i s = .refused .ibufUnwritten) ∧
  (∀ (s : State) (e : Edge) (rest : List Edge) (w : SymbolWrite), s.busy = true →
    s.edges = e :: rest → e.fits s.lenw = true → e.rst = false → e.ibufWrite = some w →
    w.addr < s.maxLen → step s = .refused .ibufWriteWhileBusy)

/-! ## The steps -/

/-- 41_unipolar_nrz.md R85: a mark is +1 held and a zero is 0 held; `POL`, `ZCNT`, `BAL` are untouched. -/
def Obligations.UnipolarStep : Prop :=
  ∀ s : State, s.inFrame 0 → ∀ p ∈ [(Instr.unipolarMark, Sym.mark, Level.plus), (.unipolarZero, .space, .zero)],
    ∃ t, exec p.1 s = .next t ∧ (s.atSymbol p.2.1 → step s = .next t) ∧
      t.obuf.read (2 * s.pos) = some p.2.2 ∧ t.obuf.read (2 * s.pos + 1) = some p.2.2 ∧
      t.pol = s.pol ∧ t.zcnt = s.zcnt ∧ t.bal = s.bal ∧
      s.stepFrame t 1 (2 * s.pos) (2 * s.pos + 2)

/-- 41_unipolar_nrz.md R86: a mark is -1 held and a zero is +1 held; `POL`, `ZCNT`, `BAL` are untouched. -/
def Obligations.NrzLStep : Prop :=
  ∀ s : State, s.inFrame 1 → ∀ p ∈ [(Instr.nrzLMark, Sym.mark, Level.minus), (.nrzLZero, .space, .plus)],
    ∃ t, exec p.1 s = .next t ∧ (s.atSymbol p.2.1 → step s = .next t) ∧
      t.obuf.read (2 * s.pos) = some p.2.2 ∧ t.obuf.read (2 * s.pos + 1) = some p.2.2 ∧
      t.pol = s.pol ∧ t.zcnt = s.zcnt ∧ t.bal = s.bal ∧
      s.stepFrame t 1 (2 * s.pos) (2 * s.pos + 2)

/-- 41_unipolar_nrz.md R87: a mark flips `POL` and then emits it, a zero emits it unchanged; `ZCNT` and `BAL`
are untouched. -/
def Obligations.NrzIStep : Prop :=
  ∀ s : State, s.inFrame 2 →
    ∀ p ∈ [(Instr.nrzIMark, Sym.mark, s.pol.flip), (.nrzIZero, .space, s.pol)],
    ∃ t, exec p.1 s = .next t ∧ (s.atSymbol p.2.1 → step s = .next t) ∧
      t.obuf.read (2 * s.pos) = some p.2.2.level ∧ t.obuf.read (2 * s.pos + 1) = some p.2.2.level ∧
      t.pol = p.2.2 ∧ t.zcnt = s.zcnt ∧ t.bal = s.bal ∧
      s.stepFrame t 1 (2 * s.pos) (2 * s.pos + 2)

/-- 42_manchester.md R95: a mark is +1 then -1, a zero is -1 then +1; `POL`, `ZCNT`, `BAL` are untouched. -/
def Obligations.ManchesterStep : Prop :=
  ∀ s : State, s.inFrame 3 →
    ∀ p ∈ [(Instr.manchesterMark, Sym.mark, Level.plus, Level.minus),
        (.manchesterZero, .space, .minus, .plus)],
    ∃ t, exec p.1 s = .next t ∧ (s.atSymbol p.2.1 → step s = .next t) ∧
      t.obuf.read (2 * s.pos) = some p.2.2.1 ∧ t.obuf.read (2 * s.pos + 1) = some p.2.2.2 ∧
      t.pol = s.pol ∧ t.zcnt = s.zcnt ∧ t.bal = s.bal ∧
      s.stepFrame t 1 (2 * s.pos) (2 * s.pos + 2)

/-- 43_b8zs.md R102: the block `[0,0,0,V,0,0,0,-V]`, doubled, with `V` the old `POL`; `POL` flips once, `POS`
advances by 8. The step is taken when `ZeroRun8(POS)` (R101). -/
def Obligations.B8zsSubstitution : Prop :=
  ∀ s : State, s.inFrame 4 → s.pos + 8 ≤ s.len →
    ∃ t, exec .b8zsSubst s = .next t ∧ (s.edges = [] → s.zeroRunAhead → step s = .next t) ∧
      (∀ k < 16, t.obuf.read (2 * s.pos + k) =
        some (if k = 6 ∨ k = 7 then s.pol.level else if k = 14 ∨ k = 15 then s.pol.flip.level else .zero)) ∧
      t.pol = s.pol.flip ∧ t.zcnt = s.zcnt ∧ t.bal = s.bal ∧
      s.stepFrame t 8 (2 * s.pos) (2 * s.pos + 16)

/-- 43_b8zs.md R103: the old `POL` held, then a flip. A mark at `POS` takes it: no window that begins with a
mark is all zeros. -/
def Obligations.B8zsMarkStep : Prop :=
  ∀ s : State, s.inFrame 4 →
    ∃ t, exec .b8zsMark s = .next t ∧
      (s.atSymbol .mark → s.windowWritten → step s = .next t) ∧
      t.obuf.read (2 * s.pos) = some s.pol.level ∧ t.obuf.read (2 * s.pos + 1) = some s.pol.level ∧
      t.pol = s.pol.flip ∧ t.zcnt = s.zcnt ∧ t.bal = s.bal ∧
      s.stepFrame t 1 (2 * s.pos) (2 * s.pos + 2)

/-- 43_b8zs.md R104: 0 held, `POL` neither read nor written; taken at a zero when not `ZeroRun8(POS)`. -/
def Obligations.B8zsZeroStep : Prop :=
  ∀ s : State, s.inFrame 4 →
    ∃ t, exec .b8zsZero s = .next t ∧
      (s.atSymbol .space → s.windowWritten → ¬s.zeroRunAhead → step s = .next t) ∧
      t.obuf.read (2 * s.pos) = some .zero ∧ t.obuf.read (2 * s.pos + 1) = some .zero ∧
      t.pol = s.pol ∧ t.zcnt = s.zcnt ∧ t.bal = s.bal ∧
      s.stepFrame t 1 (2 * s.pos) (2 * s.pos + 2)

/-- 44_hdb3.md R111: the old `POL` held, then a flip; `BAL` takes the pre-flip value, `ZCNT` is reset. -/
def Obligations.Hdb3MarkStep : Prop :=
  ∀ s : State, s.inFrame 5 →
    ∃ t, exec .hdb3Mark s = .next t ∧ (s.atSymbol .mark → step s = .next t) ∧
      t.obuf.read (2 * s.pos) = some s.pol.level ∧ t.obuf.read (2 * s.pos + 1) = some s.pol.level ∧
      t.bal = s.bal + s.pol.toInt ∧ t.pol = s.pol.flip ∧ t.zcnt = 0 ∧
      s.stepFrame t 1 (2 * s.pos) (2 * s.pos + 2)

/-- 44_hdb3.md R112: 0 held and `ZCNT` incremented, while `ZCNT + 1 < 4`; `POL` and `BAL` untouched. -/
def Obligations.Hdb3ZeroStep : Prop :=
  ∀ s : State, s.inFrame 5 → s.zcnt.toNat + 1 < 4 →
    ∃ t, exec .hdb3Zero s = .next t ∧ (s.atSymbol .space → step s = .next t) ∧
      t.obuf.read (2 * s.pos) = some .zero ∧ t.obuf.read (2 * s.pos + 1) = some .zero ∧
      t.zcnt.toNat = s.zcnt.toNat + 1 ∧ t.pol = s.pol ∧ t.bal = s.bal ∧
      s.stepFrame t 1 (2 * s.pos) (2 * s.pos + 2)

/-- 44_hdb3.md R113, with the tie of R115: at a zero with `ZCNT = 3` and `BAL >= 0` the four bit-times that end
at `POS` become `[0,0,0,-POL]`. `3 <= POS` is what R120 gives of every state that a run reaches. -/
def Obligations.Hdb3Substitution000V : Prop :=
  ∀ s : State, s.inFrame 5 → s.zcnt = 3 → 0 ≤ s.bal → 3 ≤ s.pos →
    ∃ t, exec .hdb3Subst000V s = .next t ∧ (s.atSymbol .space → step s = .next t) ∧
      (∀ k < 6, t.obuf.read (2 * (s.pos - 3) + k) = some .zero) ∧
      t.obuf.read (2 * s.pos) = some s.pol.flip.level ∧
      t.obuf.read (2 * s.pos + 1) = some s.pol.flip.level ∧
      t.bal = s.bal - s.pol.toInt ∧ t.pol = s.pol.flip ∧ t.zcnt = 0 ∧
      s.stepFrame t 1 (2 * (s.pos - 3)) (2 * s.pos + 2)

/-- 44_hdb3.md R114, with the constant of R116: at a zero with `ZCNT = 3` and `BAL < 0` the four bit-times that
end at `POS` become `[-1,0,0,-1]`, `BAL` keeps its value and `POL` is set to +1. -/
def Obligations.Hdb3SubstitutionB00V : Prop :=
  ∀ s : State, s.inFrame 5 → s.zcnt = 3 → s.bal < 0 → 3 ≤ s.pos →
    ∃ t, exec .hdb3SubstB00V s = .next t ∧ (s.atSymbol .space → step s = .next t) ∧
      t.obuf.read (2 * (s.pos - 3)) = some .minus ∧ t.obuf.read (2 * (s.pos - 3) + 1) = some .minus ∧
      (∀ k < 4, t.obuf.read (2 * (s.pos - 3) + 2 + k) = some .zero) ∧
      t.obuf.read (2 * s.pos) = some .minus ∧ t.obuf.read (2 * s.pos + 1) = some .minus ∧
      t.bal = s.bal ∧ t.pol = .plus ∧ t.zcnt = 0 ∧
      s.stepFrame t 1 (2 * (s.pos - 3)) (2 * s.pos + 2)

/-! ## The mux and step selection -/

/-- 40_mux_and_common.md R72, R71: a step of a unit that `SCHEME` does not select, or any step while
`BUSY = 0`, has no effect on any state. That an instruction run so is a next state, and no stop, is the
model's choice (log entry 13). -/
def Obligations.UnselectedUnitIsDiscarded : Prop :=
  ∀ (s : State) (i : Instr) (unit : BitVec 3), unitOf i = some unit →
    ¬(s.busy = true ∧ s.scheme = unit) → exec i s = .next s

/-- 40_mux_and_common.md R72: whatever step is selected belongs to the unit that `SCHEME` names. -/
def Obligations.SelectedStepBelongsToScheme : Prop :=
  ∀ (s : State) (i : Instr), selectStep s = .ok i → unitOf i = some s.scheme

/-- 30_encoding.md R59: every key value of each of the six schemes selects a step of that scheme, the first row
whose pattern matches; and with `ge8 = 0` the seven symbols that are not read do not matter (R57). -/
def Obligations.EveryKeySelectsAStep : Prop :=
  (∀ (scheme : BitVec 3) (key : BitVec 9), scheme.toNat < 6 → key.toNat < 2 ^ keyWidth scheme →
    ∃ r ∈ stepRows, stepRows.find? (StepRow.matchesKey scheme key) = some r ∧ r.scheme = scheme ∧
      decodeStep scheme key = .ok r.instr ∧ unitOf r.instr = some scheme) ∧
  (∀ a b : BitVec 9, a.getLsbD 8 = false → b.getLsbD 8 = false → a.getLsbD 7 = b.getLsbD 7 →
    decodeStep 4 a = decodeStep 4 b)

/-- 43_b8zs.md R105: within the last seven symbols of a B8ZS frame there is no substitution, whatever the
symbols are. -/
def Obligations.B8zsTailIsPlain : Prop :=
  ∀ (s : State) (b : Sym), s.scheme = 4 → s.pos < s.len → s.len < s.pos + 8 →
    s.ibuf.read s.pos = some b →
    selectStep s = .ok (match b with | .mark => .b8zsMark | .space => .b8zsZero)

/-- A step runs the decoded instruction: the selected step when the host drives nothing, and the START on the
command ports at an edge at which no step of the encoder ends, in the state that the edge's read and
write leave. The pending edges, the end of a step as a bit of an edge, the read before the edge and the
sight of BUSY at its start are the model's (log entries 2, 3, 10, 11). -/
def Obligations.StepExecutesFetchedInstruction : Prop :=
  (∀ (s : State) (i : Instr), s.edges = [] → s.busy = true → selectStep s = .ok i → step s = exec i s) ∧
  (∀ (s u : State) (e : Edge) (rest : List Edge) (c : Command) (i : Instr), s.edges = e :: rest →
    e.fits s.lenw = true → e.rst = false → e.cmd = some c →
    edgeWrite e (edgeRead e { s with edges := rest }) = .ok u → ¬(u.busy = true ∧ e.stepEnds = true) →
    decode u.lenw (commandWord c.scheme c.len) = .ok i → step s = exec i u) ∧
  (∀ (s u : State) (e : Edge) (rest : List Edge) (i : Instr), s.edges = e :: rest →
    e.fits s.lenw = true → e.rst = false →
    edgeWrite e (edgeRead e { s with edges := rest }) = .ok u → u.busy = true → e.stepEnds = true →
    selectStep u = .ok i → step s = exec i u)

/-- 60_exceptions.md R142 and 70_reset_and_hazards.md R159: with nothing on the ports an idle block changes no
state, and at an edge at which no step ends and nothing is driven no state changes, busy or not. The
pending edges and the end of a step as a bit of an edge are the model's (log entries 2, 3). -/
def Obligations.QuietEdgeChangesNothing : Prop :=
  (∀ s : State, s.edges = [] → s.busy = false → step s = .next s) ∧
  (∀ (s : State) (rest : List Edge), step { s with edges := {} :: rest } = .next { s with edges := rest })

/-! ## Encodings -/

/-- Decoding the encoding of a well-formed instruction gives it back, with every length that fits. -/
def Obligations.DecodeOfEncode : Prop :=
  ∀ (lenw : Nat) (i : Instr), i.wf lenw = true → decodeCode lenw (encode i) = .ok i

/-- 30_encoding.md R50 to R52: every command word of `LENW + 3` bits is the encoding of exactly the START it
decodes to, a well-formed one. The command word `{len, scheme}` as one number, and that a wider word is
rejected by name, are the model's choice (log entry 8). -/
def Obligations.CommandWordsAreStarts : Prop :=
  ∀ lenw w : Nat,
    (w < 2 ^ (lenw + 3) →
      ∃ i, decode lenw w = .ok i ∧ encode i = .command w ∧ i.wf lenw = true ∧ unitOf i = none) ∧
    (2 ^ (lenw + 3) ≤ w → decode lenw w = .error .wordTooWide)

/-- Words written out from 30_encoding.md R51, R52 and R59: one START of each kind and one key of each unit. -/
def Obligations.WordsOfTheSpecDecode : Prop :=
  decode 16 0b1010_000 = .ok (.unipolar 10) ∧ decode 16 0b101_001 = .ok (.nrzL 5) ∧
  decode 16 0b001_010 = .ok (.nrzI 1) ∧ decode 16 0b10_011 = .ok (.manchester 2) ∧
  decode 16 0b10011_100 = .ok (.b8zs 19) ∧ decode 16 0b1010_101 = .ok (.hdb3 10) ∧
  decode 16 0b101_110 = .ok (.illegal6 5) ∧ decode 16 0b001_111 = .ok (.illegal7 1) ∧
  decodeStep 0b000 0b1 = .ok .unipolarMark ∧ decodeStep 0b001 0b0 = .ok .nrzLZero ∧
  decodeStep 0b010 0b1 = .ok .nrzIMark ∧ decodeStep 0b011 0b0 = .ok .manchesterZero ∧
  decodeStep 0b100 0b1_0000_0000 = .ok .b8zsSubst ∧ decodeStep 0b101 0b0_1_1 = .ok .hdb3SubstB00V

/-- 30_encoding.md R53, R54, R55: the symbol bit, the two's-complement level code, with `10` the code of no
level, and the polarity bit, whose inversion is the flip. -/
def Obligations.CodesOfTheSpec : Prop :=
  (Sym.space.code = 0 ∧ Sym.mark.code = 1 ∧ ∀ b : Sym, Sym.ofCode b.code = b) ∧
  (Level.zero.code = 0b00 ∧ Level.plus.code = 0b01 ∧ Level.minus.code = 0b11 ∧
    ∀ l : Level, l.code ≠ 0b10 ∧ l.code.toInt = l.toInt) ∧
  (Pol.plus.code = 0 ∧ Pol.minus.code = 1 ∧
    ∀ p : Pol, p.flip.code = ~~~p.code ∧ p.level.code = p.code ++ (1 : BitVec 1) ∧ p.flip.toInt = -p.toInt)

/-! ## Reset and the host's operations -/

/-- 10_state.md R22: the register values after reset, for every width. No cell of either buffer has a value
(log entry 15), and the block is idle: with nothing on the ports it does nothing. -/
def Obligations.ResetRegisters : Prop :=
  ∀ lenw : Nat, ∀ s ∈ [State.resetOf lenw, State.reset],
    s.busy = false ∧ s.done = false ∧ s.err = false ∧ s.errcode = 0 ∧ s.scheme = 0 ∧ s.len = 0 ∧
      s.pol = .plus ∧ s.zcnt = 0 ∧ s.bal = 0 ∧ s.pos = 0 ∧
      (∀ k, s.ibuf.read k = none) ∧ (∀ k, s.obuf.read k = none) ∧ step s = .next s

/-- 70_reset_and_hazards.md R150: at an edge with `rst = 1`, whatever else is on the ports and whatever frame is
running, the registers take the reset values, a START and an IBUF write are ignored, no cell of either
buffer keeps a value (log entry 15), and the block is idle afterwards. -/
def Obligations.ResetEdgeWins : Prop :=
  ∀ (s : State) (e : Edge) (rest : List Edge), s.edges = e :: rest → e.fits s.lenw = true → e.rst = true →
    ∃ t, step s = .next t ∧
      t.busy = false ∧ t.done = false ∧ t.err = false ∧ t.errcode = 0 ∧ t.scheme = 0 ∧ t.len = 0 ∧
      t.pol = .plus ∧ t.zcnt = 0 ∧ t.bal = 0 ∧ t.pos = 0 ∧
      (∀ k, t.ibuf.read k = none) ∧ (∀ k, t.obuf.read k = none) ∧ t.lenw = s.lenw ∧ t.edges = rest ∧
      (rest = [] → step t = .next t)

/-- 40_mux_and_common.md R78: a host write of IBUF stores the symbol and changes no other state while `BUSY = 0`,
is refused while `BUSY = 1`, and on the edge of a START comes before it. -/
def Obligations.HostWriteOfIbuf : Prop :=
  ∀ (s : State) (e : Edge) (rest : List Edge) (w : SymbolWrite), s.edges = e :: rest →
    e.fits s.lenw = true → e.rst = false → e.obufAddr = none → e.ibufWrite = some w →
    w.addr < s.maxLen →
    (s.busy = true → step s = .refused .ibufWriteWhileBusy) ∧
    (s.busy = false → ∃ m : Memory Sym,
      m.read w.addr = some (Sym.ofCode w.data) ∧ (∀ k, k ≠ w.addr → m.read k = s.ibuf.read k) ∧
      (e.cmd = none → step s = .next { s with edges := rest, ibuf := m }) ∧
      (∀ c, e.cmd = some c →
        step s = exec (startInstr c.scheme c.len) { s with edges := rest, ibuf := m }))

/-- 20_memory.md R36: index `MAXLEN` does not exist, and a write to it is ignored. That it is ignored also
while `BUSY = 1` is the model's reading (log entry 9). -/
def Obligations.HostWriteAtMaxlenIsIgnored : Prop :=
  ∀ (s : State) (rest : List Edge) (d : BitVec 1), 1 ≤ s.lenw →
    step { s with edges := { ibufWrite := some ⟨s.maxLen, d⟩ } :: rest } = .next { s with edges := rest }

/-- 20_memory.md R41, 40_mux_and_common.md R79: while `DONE = 1` a host read of `OBUF[k]` with `k < 2 * LEN` gives
the code of the sample of the frame, and has no side effect. -/
def Obligations.HostReadOfValidSample : Prop :=
  ∀ (s : State) (k : Nat) (rest : List Edge), s.Inv → s.done = true → k < 2 * s.len →
    ∃ l, s.obuf.read k = some l ∧
      step { s with edges := { obufAddr := some k } :: rest } =
        .next { s with edges := rest, obufRdata := l.code }

/-- 20_memory.md R41: any other host read of OBUF gives `any value`: a fresh free value, of which nothing is
claimed; no register and no buffer changes. -/
def Obligations.HostReadOfAnyValue : Prop :=
  ∀ (s : State) (k : Nat) (rest : List Edge), k < 2 ^ (s.lenw + 1) →
    (s.done = false ∨ 2 * s.len ≤ k) →
    step { s with edges := { obufAddr := some k } :: rest } =
      .next { s with edges := rest, obufRdata := Config.anySample s.anyCount, anyCount := s.anyCount + 1 }

/-- 10_state.md R15 to R18, 40_mux_and_common.md R80: the bits of `STATUS`, the four registers by number, `CTRL`
reading as 0, and the status ports, which are the registers. -/
def Obligations.StatusAndRegisterReads : Prop :=
  ∀ s : State,
    (s.statusWord.getLsbD 0 = s.busy ∧ s.statusWord.getLsbD 1 = s.done ∧ s.statusWord.getLsbD 2 = s.err ∧
      s.statusWord.extractLsb' 3 2 = s.errcode) ∧
    (s.readRegister 0 = s.scheme.toNat ∧ s.readRegister 1 = s.len ∧ s.readRegister 2 = 0 ∧
      s.readRegister 3 = s.statusWord.toNat) ∧
    s.outputs = ⟨s.busy, s.done, s.err, s.errcode, s.scheme, s.len⟩

/-! ## Every step -/

/-- The invariant holds at reset, for every legal width. -/
def Obligations.InvariantHoldsAtReset : Prop :=
  State.reset.Inv ∧ ∀ lenw, 1 ≤ lenw → (State.resetOf lenw).Inv

/-- The invariant is kept by every step, from every state that has it: buffers canonical and in bounds, legal
flags (R18), a scan position inside the frame (R71), full coverage at DONE (R81), unused registers at
their START values (R19), the range of BAL (R119), the meaning of ZCNT (R120). -/
def Obligations.InvariantKeptByEveryStep : Prop :=
  ∀ s t : State, s.Inv → step s = .next t → t.Inv

/-- 20_memory.md R37, 60_exceptions.md R130: no access out of range and no fault inside a frame. -/
def Obligations.NoFaultIsReachable : Prop :=
  ∀ (s : State) (r : Fault), s.Inv → step s ≠ .fault r

/-- The machine stops only where the host breaks a duty of 70_reset_and_hazards.md R152 or R156: while the duties
are kept, every step answers a next state. -/
def Obligations.DutifulHostIsNeverRefused : Prop :=
  ∀ s : State, s.Inv → s.dutiesKept → ∃ t, step s = .next t

/-- 10_state.md R14: while `BUSY = 1` a step adds 1 to the scan position, or 8 in a B8ZS frame; it never passes
`LEN`, and the frame ends exactly when it reaches `LEN` (40_mux_and_common.md R71). -/
def Obligations.ScanPositionAdvances : Prop :=
  ∀ s : State, s.Inv → s.edges = [] → s.busy = true →
    ∃ t, step s = .next t ∧ (t.pos = s.pos + 1 ∨ s.scheme = 4 ∧ t.pos = s.pos + 8) ∧ t.pos ≤ s.len ∧
      t.len = s.len ∧ t.scheme = s.scheme ∧
      (t.pos = s.len → t.busy = false ∧ t.done = true) ∧ (t.pos < s.len → t.busy = true ∧ t.done = false)

/-- 40_mux_and_common.md R83: a running frame always ends with `DONE`, at the `k`-th step and at none before it
(`BUSY` is 1 until then), where `k` is at most one step per remaining symbol and at least one per eight;
for every scheme but B8ZS it is exactly one per symbol. -/
def Obligations.RunningFrameReachesDone : Prop :=
  ∀ s : State, s.Inv → s.edges = [] → s.busy = true →
    ∃ k t, s.runsToDone k t s.len ∧ k ≤ s.len - s.pos ∧ s.len - s.pos ≤ 8 * k ∧
      (s.scheme ≠ 4 → k = s.len - s.pos)

/-- No instruction changes IBUF (20_memory.md R30), the ports or the width; and no step of the encoder changes
SCHEME, LEN, ERR or ERRCODE (20_memory.md R40). -/
def Obligations.InstructionsKeepInputs : Prop :=
  ∀ (i : Instr) (s t : State), exec i s = .next t →
    s.sameOutside t ∧ (s.busy = true ∨ unitOf i ≠ none → s.sameCommand t)

/-- 20_memory.md R40: SCHEME, LEN and IBUF cannot change during a frame, except by reset. -/
def Obligations.FrameOperandsAreFixed : Prop :=
  ∀ s t : State, s.busy = true → (∀ e ∈ s.edges.head?, e.rst = false) → step s = .next t →
    t.scheme = s.scheme ∧ t.len = s.len ∧ t.ibuf = s.ibuf

/-- 10_state.md R18, 60_exceptions.md R135: DONE goes from 1 to 0 only at an accepted START or reset; ERR goes from
1 to 0 only at an accepted START with a valid scheme or reset. -/
def Obligations.FlagsClearedOnlyByStartOrReset : Prop :=
  ∀ s t : State, step s = .next t →
    (s.done = true → t.done = false →
      ∃ e ∈ s.edges.head?, e.rst = true ∨ (s.busy = false ∧ e.cmd.isSome = true)) ∧
    (s.err = true → t.err = false →
      ∃ e ∈ s.edges.head?, e.rst = true ∨ (s.busy = false ∧ ∃ c ∈ e.cmd, c.scheme.toNat < 6))

/-- 70_reset_and_hazards.md R154: while a frame runs, a sample behind the scan position is final, but for the
three bit-times that HDB3 may rewrite; and no cell at or beyond `2 * LEN` is written (R81). -/
def Obligations.SamplesBehindScanAreFinal : Prop :=
  ∀ s t : State, s.Inv → s.busy = true → (∀ e ∈ s.edges.head?, e.rst = false) → step s = .next t →
    (∀ j, j + 4 ≤ s.pos → t.obuf.read (2 * j) = s.obuf.read (2 * j) ∧
      t.obuf.read (2 * j + 1) = s.obuf.read (2 * j + 1)) ∧
    (s.scheme ≠ 5 → ∀ k < 2 * s.pos, t.obuf.read k = s.obuf.read k) ∧
    (∀ k, 2 * s.len ≤ k → t.obuf.read k = s.obuf.read k)

/-- 20_memory.md R41 and 70_reset_and_hazards.md R157, over every edge: while `BUSY = 0` a step without `rst`
leaves OBUF as it was, whatever IBUF write, OBUF read or START is on the edge (an error entry writes no
cell either, R131); and without a START on the edge the samples the host can read are as before,
until reset or the next START. -/
def Obligations.IdleBlockKeepsSamples : Prop :=
  ∀ s t : State, s.busy = false → (∀ e ∈ s.edges.head?, e.rst = false) → step s = .next t →
    t.obuf = s.obuf ∧
    ((∀ e ∈ s.edges.head?, e.cmd = none) →
      t.busy = false ∧ t.done = s.done ∧ t.len = s.len ∧ ∀ k, t.sampleAt k = s.sampleAt k)

/-- Every step takes the oldest pending edge and no other, and no step changes the width: the model's own fields
(log entries 1 and 2). -/
def Obligations.StepConsumesOneEdge : Prop :=
  ∀ s t : State, step s = .next t → t.edges = s.edges.tail ∧ t.lenw = s.lenw

/-- 44_hdb3.md R119: the sharp range of BAL, and `|BAL| <= POS`, are kept by every HDB3 step that is selected. -/
def Obligations.Hdb3BalanceRange : Prop :=
  ∀ (s t : State) (i : Instr), s.inFrame 5 → s.bal.natAbs ≤ s.pos → balanceOk s.pol s.bal →
    selectStep s = .ok i → exec i s = .next t →
    t.bal.natAbs ≤ t.pos ∧ balanceOk t.pol t.bal ∧ -2 ≤ t.bal

/-! ## Whole frames -/

/-- 41_unipolar_nrz.md R88, 42_manchester.md R96: in UNIPOLAR, NRZ-L and MANCHESTER the two samples of a bit-time
are a function of its symbol alone. From any idle state that holds the bit string, START runs to DONE,
after `1 + n` steps, with those samples. -/
def Obligations.MemorylessFrames : Prop :=
  ∀ (s : State) (scheme : BitVec 3) (f : Sym → List Level) (bits : List Sym),
    (scheme, f) = (0, unipolarSamples) ∨ (scheme, f) = (1, nrzLSamples) ∨
      (scheme, f) = (3, manchesterSamples) →
    s.readyFor scheme bits →
    ∃ t, s.runsToDone (1 + bits.length) t bits.length ∧ holdsSamples t.obuf (bits.flatMap f)

/-- 41_unipolar_nrz.md R89: an NRZ-I frame in closed form. The level of bit-time `i` is +1 if the number of marks in
`s[0..i]` is even and -1 if it is odd, and so is the final POL. -/
def Obligations.NrzIFrame : Prop :=
  ∀ (s : State) (bits : List Sym), s.readyFor 2 bits →
    ∃ t, s.runsToDone (1 + bits.length) t bits.length ∧
      (∀ i < bits.length,
        t.obuf.read (2 * i) = some (polAfterFlips (markCount (bits.take (i + 1)))).level ∧
        t.obuf.read (2 * i + 1) = some (polAfterFlips (markCount (bits.take (i + 1)))).level) ∧
      t.pol = polAfterFlips (markCount bits)

/-- 42_manchester.md R97: inside every bit-time of a MANCHESTER frame the level changes sign; between two bit-times
it changes exactly when their symbols are equal. -/
def Obligations.ManchesterTransitions : Prop :=
  ∀ (s : State) (bits : List Sym), s.readyFor 3 bits →
    ∃ t, s.runsToDone (1 + bits.length) t bits.length ∧
      (∀ i < bits.length, ∃ p : Pol, t.obuf.read (2 * i) = some p.level ∧
        t.obuf.read (2 * i + 1) = some p.flip.level) ∧
      (∀ i, i + 1 < bits.length →
        (t.obuf.read (2 * i + 1) ≠ t.obuf.read (2 * i + 2) ↔ bits[i]? = bits[i + 1]?))

/-- 43_b8zs.md R100 to R106: a B8ZS frame computes the look-ahead function on lists, block by block. -/
def Obligations.B8zsFrame : Prop :=
  ∀ (s : State) (bits : List Sym), s.readyFor 4 bits →
    ∃ k t, s.runsToDone k t bits.length ∧
      (b8zsSamples bits.length .plus bits).length = 2 * bits.length ∧
      holdsSamples t.obuf (b8zsSamples bits.length .plus bits)

/-- 43_b8zs.md R108: a B8ZS frame with `b` blocks and `m` marks takes exactly `LEN - 7b` steps after the START
(`BUSY` is still 1 after one fewer), and ends with `POL` flipped once per block and once per mark. -/
def Obligations.B8zsStepCount : Prop :=
  ∀ (s : State) (bits : List Sym), s.readyFor 4 bits →
    ∃ t, s.runsToDone (1 + (bits.length - 7 * b8zsBlocks bits.length bits)) t bits.length ∧
      t.pol = polAfterFlips (b8zsBlocks bits.length bits + markCount bits)

/-- 44_hdb3.md R110 to R121: an HDB3 frame, which counts zeros and rewrites samples behind the scan position,
computes the look-ahead function on lists that cuts each run of zeros into substitutions of four from
its start. -/
def Obligations.Hdb3Frame : Prop :=
  ∀ (s : State) (bits : List Sym), s.readyFor 5 bits →
    ∃ t, s.runsToDone (1 + bits.length) t bits.length ∧
      (hdb3Samples bits.length .plus 0 bits).length = 2 * bits.length ∧
      holdsSamples t.obuf (hdb3Samples bits.length .plus 0 bits)

/-- 00_scope.md R4: the output of a frame is a function of the scheme and the bit string alone. Two idle states that
hold the same bit string, whatever else differs between them, end with the same samples. -/
def Obligations.FrameOutputIsPure : Prop :=
  ∀ (s s' : State) (scheme : BitVec 3) (bits : List Sym), scheme.toNat < 6 →
    s.readyFor scheme bits → s'.readyFor scheme bits →
    ∃ k t k' t', s.runsToDone k t bits.length ∧ s'.runsToDone k' t' bits.length ∧
      ∀ j < 2 * bits.length, (t.sampleAt j).isSome = true ∧ t.sampleAt j = t'.sampleAt j

/-- 40_mux_and_common.md R82: `Encode(sch, s)` is what the step machine computes. Where it is a list of
samples, a frame of `s` started from any idle state that holds `s` runs to `DONE`, and the list is what
the host then reads, `2n` samples; where it is InvalidSchemeId, the START enters that error and there
is no list; where it is `refuse`, the START is refused under the same name. It is a list exactly for the six
schemes and a non-empty `s`; and in UNIPOLAR, NRZ-L and MANCHESTER it distributes over concatenation. -/
def Obligations.EncodeIsTheFrame : Prop :=
  (∀ (s : State) (scheme : BitVec 3) (bits : List Sym) (y : List Level), s.readyFor scheme bits →
    encodeReference scheme bits = .samples y →
    y.length = 2 * bits.length ∧
      ∃ k t, s.runsToDone k t bits.length ∧ ∀ j < 2 * bits.length, t.sampleAt j = y[j]?) ∧
  (∀ (s : State) (scheme : BitVec 3) (bits : List Sym), s.busy = false →
    bits.length < 2 ^ s.lenw → s.edges = [startEdge scheme bits.length] →
    encodeReference scheme bits = .invalidSchemeId →
    ∃ t, step s = .next t ∧ t.err = true ∧ t.errcode = 1 ∧ t.done = false ∧ t.busy = false ∧
      ∀ j, t.sampleAt j = none) ∧
  (∀ (s : State) (scheme : BitVec 3) (bits : List Sym) (why : Refusal), s.busy = false →
    s.edges = [startEdge scheme bits.length] → encodeReference scheme bits = .refused why →
    step s = .refused why) ∧
  (∀ (scheme : BitVec 3) (bits : List Sym),
    ((∃ y, encodeReference scheme bits = .samples y) ↔ scheme.toNat < 6 ∧ bits ≠ []) ∧
    (encodeReference scheme bits = .invalidSchemeId ↔ 6 ≤ scheme.toNat)) ∧
  (∀ (scheme : BitVec 3) (a b : List Sym) (y z : List Level), scheme = 0 ∨ scheme = 1 ∨ scheme = 3 →
    encodeReference scheme a = .samples y → encodeReference scheme b = .samples z →
    encodeReference scheme (a ++ b) = .samples (y ++ z))
end

