-- ==== Sys2Proof/Laws/Memory.lean ====
section
/-! SUPPORT. Cells of a buffer: a read after a write, what a write leaves alone, and that every memory
operation keeps the canonical form. -/

namespace Sys2Proof.Machine

variable {α : Type}

@[simp] theorem Memory.read_nil (a : Nat) : Memory.read ([] : Memory α) a = none := rfl

theorem Memory.read_cons (c : Nat × α) (m : Memory α) (a : Nat) :
    Memory.read (c :: m) a = if c.1 = a then some c.2 else m.read a := by
  cases c; rfl

/-- A read after a write: the value written at its index, and the old value elsewhere. -/
theorem Memory.read_write (m : Memory α) (a : Nat) (v : α) (b : Nat) :
    (m.write a v).read b = if a = b then some v else m.read b := by
  induction m with
  | nil => simp [Memory.write, Memory.read_cons]
  | cons c m ih =>
    obtain ⟨k, w⟩ := c
    simp only [Memory.write]
    split
    · simp [Memory.read_cons]
    · split
      · next h => subst h; simp only [Memory.read_cons]; split <;> rfl
      · next h1 h2 =>
        simp only [Memory.read_cons, ih]
        split
        · next h => rw [if_neg (by omega)]
        · rfl

@[simp] theorem Memory.read_write_same (m : Memory α) (a : Nat) (v : α) :
    (m.write a v).read a = some v := by
  simp [Memory.read_write]

theorem Memory.read_write_other (m : Memory α) {a b : Nat} (v : α) (h : a ≠ b) :
    (m.write a v).read b = m.read b := by
  simp [Memory.read_write, h]

/-- Reading below the cells that a list was written to. -/
theorem Memory.read_writeList_below (m : Memory α) (a : Nat) (vs : List α) {k : Nat} (h : k < a) :
    (m.writeList a vs).read k = m.read k := by
  induction vs generalizing m a with
  | nil => rfl
  | cons v vs ih =>
    rw [Memory.writeList, ih _ _ (by omega), Memory.read_write_other _ _ (by omega)]

/-- Reading above the cells that a list was written to. -/
theorem Memory.read_writeList_above (m : Memory α) (a : Nat) (vs : List α) {k : Nat}
    (h : a + vs.length ≤ k) : (m.writeList a vs).read k = m.read k := by
  induction vs generalizing m a with
  | nil => rfl
  | cons v vs ih =>
    rw [List.length_cons] at h
    rw [Memory.writeList, ih _ _ (by omega), Memory.read_write_other _ _ (by omega)]

/-- Reading one of the cells that a list was written to. -/
theorem Memory.read_writeList_inside (m : Memory α) (a : Nat) (vs : List α) {j : Nat}
    (h : j < vs.length) : (m.writeList a vs).read (a + j) = vs[j]? := by
  induction vs generalizing m a j with
  | nil => simp at h
  | cons v vs ih =>
    cases j with
    | zero => rw [Memory.writeList, Nat.add_zero, Memory.read_writeList_below _ _ _ (by omega)]; simp
    | succ j =>
      rw [Memory.writeList, show a + (j + 1) = a + 1 + j by omega, ih _ _ (by simpa using h)]
      simp

/-- Everything a list write does to a read. -/
theorem Memory.read_writeList (m : Memory α) (a : Nat) (vs : List α) (k : Nat) :
    (m.writeList a vs).read k =
      if a ≤ k ∧ k < a + vs.length then vs[k - a]? else m.read k := by
  split
  · next h =>
    have := Memory.read_writeList_inside m a vs (j := k - a) (by omega)
    rwa [show a + (k - a) = k by omega] at this
  · next h =>
    by_cases hk : k < a
    · exact Memory.read_writeList_below _ _ _ hk
    · exact Memory.read_writeList_above _ _ _ (by omega)

/-! ## Listed cells -/

/-- A cell listed after a write was listed before, or is the one written. -/
theorem Memory.mem_write {m : Memory α} {a : Nat} {v : α} {c : Nat × α} (h : c ∈ m.write a v) :
    c = (a, v) ∨ c ∈ m := by
  induction m with
  | nil => simpa [Memory.write] using h
  | cons d m ih =>
    obtain ⟨k, w⟩ := d
    simp only [Memory.write] at h
    split at h
    · simpa using h
    · split at h
      · simp only [List.mem_cons] at h ⊢; tauto
      · simp only [List.mem_cons] at h ⊢
        rcases h with h | h
        · tauto
        · rcases ih h with h | h <;> tauto

theorem cellsBelow_write {m : Memory α} {a n : Nat} {v : α} (hm : cellsBelow m n) (ha : a < n) :
    cellsBelow (m.write a v) n := by
  intro c hc
  rcases Memory.mem_write hc with rfl | h
  · exact ha
  · exact hm c h

theorem cellsBelow_writeList {m : Memory α} {a n : Nat} {vs : List α} (hm : cellsBelow m n)
    (ha : a + vs.length ≤ n) : cellsBelow (m.writeList a vs) n := by
  induction vs generalizing m a with
  | nil => exact hm
  | cons v vs ih =>
    rw [List.length_cons] at ha
    exact ih (cellsBelow_write hm (by omega)) (by omega)

/-- An index that bounds every listed cell reads as no value. -/
theorem Memory.read_eq_none_of_below {m : Memory α} {n k : Nat} (hm : cellsBelow m n) (hk : n ≤ k) :
    m.read k = none := by
  induction m with
  | nil => rfl
  | cons c m ih =>
    have hc := hm c (List.mem_cons_self ..)
    rw [Memory.read_cons, if_neg (by omega)]
    exact ih fun d hd => hm d (List.mem_cons_of_mem _ hd)

/-! ## The canonical form -/

theorem Memory.wf_cons (c : Nat × α) (m : Memory α) :
    Memory.wf (c :: m) = true ↔ (∀ d ∈ m, c.1 < d.1) ∧ Memory.wf m = true := by
  cases c; simp [Memory.wf]

/-- A write keeps the canonical form. -/
theorem Memory.wf_write {m : Memory α} (a : Nat) (v : α) (h : m.wf = true) :
    (m.write a v).wf = true := by
  induction m with
  | nil => rfl
  | cons c m ih =>
    obtain ⟨k, w⟩ := c
    have hkm := (Memory.wf_cons _ _).1 h
    simp only [Memory.write]
    split
    · next hak =>
      refine (Memory.wf_cons _ _).2 ⟨?_, h⟩
      intro d hd
      rcases List.mem_cons.1 hd with rfl | hd
      · exact hak
      · exact Nat.lt_trans hak (hkm.1 d hd)
    · split
      · next hak => subst hak; exact (Memory.wf_cons _ _).2 hkm
      · next h1 h2 =>
        refine (Memory.wf_cons _ _).2 ⟨?_, ih hkm.2⟩
        intro d hd
        rcases Memory.mem_write hd with rfl | hd
        · show k < a; omega
        · exact hkm.1 d hd

/-- A list write keeps the canonical form. -/
theorem Memory.wf_writeList {m : Memory α} (a : Nat) (vs : List α) (h : m.wf = true) :
    (m.writeList a vs).wf = true := by
  induction vs generalizing m a with
  | nil => exact h
  | cons v vs ih => exact ih _ (Memory.wf_write a v h)

/-- A canonical memory lists nothing below its first cell. -/
theorem Memory.read_below_head {c : Nat × α} {m : Memory α} (h : Memory.wf (c :: m) = true) {a : Nat}
    (ha : a ≤ c.1) : m.read a = none := by
  have hlt := ((Memory.wf_cons _ _).1 h).1
  clear h
  induction m with
  | nil => rfl
  | cons d m ih =>
    have := hlt d (List.mem_cons_self ..)
    rw [Memory.read_cons, if_neg (by omega)]
    exact ih fun e he => hlt e (List.mem_cons_of_mem _ he)

/-- Canonical memories that read alike are equal data. -/
theorem Memory.ext_of_wf {m m' : Memory α} (h : m.wf = true) (h' : m'.wf = true)
    (heq : ∀ a, m.read a = m'.read a) : m = m' := by
  induction m generalizing m' with
  | nil =>
    cases m' with
    | nil => rfl
    | cons d m' => have := heq d.1; simp [Memory.read_cons] at this
  | cons c m ih =>
    cases m' with
    | nil => have := heq c.1; simp [Memory.read_cons] at this
    | cons d m' =>
      have hc := heq c.1
      have hd := heq d.1
      have hkey : c.1 = d.1 := by
        by_contra hne
        rw [Memory.read_cons, if_pos rfl, Memory.read_cons, if_neg (Ne.symm hne)] at hc
        rw [Memory.read_cons, if_neg hne, Memory.read_cons, if_pos rfl] at hd
        rcases Nat.lt_or_gt_of_ne hne with hlt | hlt
        · rw [Memory.read_below_head h' (by omega)] at hc; simp at hc
        · rw [Memory.read_below_head h (by omega)] at hd; simp at hd
      have hval : c.2 = d.2 := by
        simpa [Memory.read_cons, hkey] using hc
      obtain rfl : c = d := Prod.ext hkey hval
      congr 1
      refine ih ((Memory.wf_cons _ _).1 h).2 ((Memory.wf_cons _ _).1 h').2 fun a => ?_
      by_cases ha : c.1 = a
      · rw [← ha, Memory.read_below_head h le_rfl, Memory.read_below_head h' le_rfl]
      · simpa [Memory.read_cons, ha] using heq a

/-! ## Loading a frame -/

/-- `fillUnwritten` keeps every value that was there, and gives the others below `n` the symbol 0. -/
theorem read_fillUnwritten (m : Memory Sym) (n a : Nat) :
    (fillUnwritten m n).read a =
      match m.read a with
      | some v => some v
      | none => if a < n then some .space else none := by
  induction n generalizing m with
  | zero => simp only [fillUnwritten]; cases m.read a <;> simp
  | succ n ih =>
    simp only [fillUnwritten]
    split
    · next v hv =>
      rw [ih]
      cases h : m.read a with
      | some _ => rfl
      | none =>
        have : a ≠ n := by rintro rfl; simp [h] at hv
        simp only [show (a < n + 1) = (a < n) from propext (by omega)]
    · next hn =>
      rw [ih, Memory.read_write]
      by_cases ha : n = a
      · subst ha; simp [hn]
      · rw [if_neg ha]
        cases m.read a with
        | some _ => rfl
        | none => simp only [show (a < n + 1) = (a < n) from propext (by omega)]

theorem wf_fillUnwritten {m : Memory Sym} (n : Nat) (h : m.wf = true) :
    (fillUnwritten m n).wf = true := by
  induction n generalizing m with
  | zero => exact h
  | succ n ih =>
    simp only [fillUnwritten]
    split
    · exact ih h
    · exact ih (Memory.wf_write _ _ h)

/-- Memory at reset is canonical: nothing is listed. -/
theorem reset_memories_wf (lenw : Nat) :
    (State.resetOf lenw).ibuf.wf = true ∧ (State.resetOf lenw).obuf.wf = true := ⟨rfl, rfl⟩

end Sys2Proof.Machine
end

