-- ==== Sys2Proof/Laws/State.lean ====
section
/-! SUPPORT. Every field after every named update of State: one lemma per field per update. -/

namespace Sys2Proof.Machine

variable (s : State)

/-! ### `State.committed`: a step of a scheme unit -/

@[simp] theorem State.committed_pol (u : UnitOutput) : (s.committed u).pol = u.pol := rfl
@[simp] theorem State.committed_zcnt (u : UnitOutput) : (s.committed u).zcnt = u.zcnt := rfl
@[simp] theorem State.committed_bal (u : UnitOutput) : (s.committed u).bal = u.bal := rfl
@[simp] theorem State.committed_pos (u : UnitOutput) : (s.committed u).pos = s.pos + u.stride := rfl
@[simp] theorem State.committed_scheme (u : UnitOutput) : (s.committed u).scheme = s.scheme := rfl
@[simp] theorem State.committed_len (u : UnitOutput) : (s.committed u).len = s.len := rfl
@[simp] theorem State.committed_busy (u : UnitOutput) : (s.committed u).busy = busyAfter (s.pos + u.stride) s.len := rfl
@[simp] theorem State.committed_done (u : UnitOutput) : (s.committed u).done = doneAfter s.done (s.pos + u.stride) s.len := rfl
@[simp] theorem State.committed_err (u : UnitOutput) : (s.committed u).err = s.err := rfl
@[simp] theorem State.committed_errcode (u : UnitOutput) : (s.committed u).errcode = s.errcode := rfl
@[simp] theorem State.committed_ibuf (u : UnitOutput) : (s.committed u).ibuf = s.ibuf := rfl
@[simp] theorem State.committed_obuf (u : UnitOutput) : (s.committed u).obuf = s.obuf.writeList u.write.cell.toNat u.write.levels := rfl
@[simp] theorem State.committed_lenw (u : UnitOutput) : (s.committed u).lenw = s.lenw := rfl
@[simp] theorem State.committed_edges (u : UnitOutput) : (s.committed u).edges = s.edges := rfl
@[simp] theorem State.committed_obufRdata (u : UnitOutput) : (s.committed u).obufRdata = s.obufRdata := rfl
@[simp] theorem State.committed_anyCount (u : UnitOutput) : (s.committed u).anyCount = s.anyCount := rfl

/-! ### `State.startFrame`: an accepted START of a frame -/

@[simp] theorem State.startFrame_pol (c : BitVec 3) (n : Nat) : (s.startFrame c n).pol = .plus := rfl
@[simp] theorem State.startFrame_zcnt (c : BitVec 3) (n : Nat) : (s.startFrame c n).zcnt = 0 := rfl
@[simp] theorem State.startFrame_bal (c : BitVec 3) (n : Nat) : (s.startFrame c n).bal = 0 := rfl
@[simp] theorem State.startFrame_pos (c : BitVec 3) (n : Nat) : (s.startFrame c n).pos = 0 := rfl
@[simp] theorem State.startFrame_scheme (c : BitVec 3) (n : Nat) : (s.startFrame c n).scheme = c := rfl
@[simp] theorem State.startFrame_len (c : BitVec 3) (n : Nat) : (s.startFrame c n).len = n := rfl
@[simp] theorem State.startFrame_busy (c : BitVec 3) (n : Nat) : (s.startFrame c n).busy = true := rfl
@[simp] theorem State.startFrame_done (c : BitVec 3) (n : Nat) : (s.startFrame c n).done = false := rfl
@[simp] theorem State.startFrame_err (c : BitVec 3) (n : Nat) : (s.startFrame c n).err = false := rfl
@[simp] theorem State.startFrame_errcode (c : BitVec 3) (n : Nat) : (s.startFrame c n).errcode = 0 := rfl
@[simp] theorem State.startFrame_ibuf (c : BitVec 3) (n : Nat) : (s.startFrame c n).ibuf = s.ibuf := rfl
@[simp] theorem State.startFrame_obuf (c : BitVec 3) (n : Nat) : (s.startFrame c n).obuf = s.obuf := rfl
@[simp] theorem State.startFrame_lenw (c : BitVec 3) (n : Nat) : (s.startFrame c n).lenw = s.lenw := rfl
@[simp] theorem State.startFrame_edges (c : BitVec 3) (n : Nat) : (s.startFrame c n).edges = s.edges := rfl
@[simp] theorem State.startFrame_obufRdata (c : BitVec 3) (n : Nat) : (s.startFrame c n).obufRdata = s.obufRdata := rfl
@[simp] theorem State.startFrame_anyCount (c : BitVec 3) (n : Nat) : (s.startFrame c n).anyCount = s.anyCount := rfl

/-! ### `State.raiseInvalidSchemeId`: the error entry -/

@[simp] theorem State.raiseInvalidSchemeId_pol (c : BitVec 3) (n : Nat) : (s.raiseInvalidSchemeId c n).pol = s.pol := rfl
@[simp] theorem State.raiseInvalidSchemeId_zcnt (c : BitVec 3) (n : Nat) : (s.raiseInvalidSchemeId c n).zcnt = s.zcnt := rfl
@[simp] theorem State.raiseInvalidSchemeId_bal (c : BitVec 3) (n : Nat) : (s.raiseInvalidSchemeId c n).bal = s.bal := rfl
@[simp] theorem State.raiseInvalidSchemeId_pos (c : BitVec 3) (n : Nat) : (s.raiseInvalidSchemeId c n).pos = s.pos := rfl
@[simp] theorem State.raiseInvalidSchemeId_scheme (c : BitVec 3) (n : Nat) : (s.raiseInvalidSchemeId c n).scheme = c := rfl
@[simp] theorem State.raiseInvalidSchemeId_len (c : BitVec 3) (n : Nat) : (s.raiseInvalidSchemeId c n).len = n := rfl
@[simp] theorem State.raiseInvalidSchemeId_busy (c : BitVec 3) (n : Nat) : (s.raiseInvalidSchemeId c n).busy = false := rfl
@[simp] theorem State.raiseInvalidSchemeId_done (c : BitVec 3) (n : Nat) : (s.raiseInvalidSchemeId c n).done = false := rfl
@[simp] theorem State.raiseInvalidSchemeId_err (c : BitVec 3) (n : Nat) : (s.raiseInvalidSchemeId c n).err = true := rfl
@[simp] theorem State.raiseInvalidSchemeId_errcode (c : BitVec 3) (n : Nat) : (s.raiseInvalidSchemeId c n).errcode = 1 := rfl
@[simp] theorem State.raiseInvalidSchemeId_ibuf (c : BitVec 3) (n : Nat) : (s.raiseInvalidSchemeId c n).ibuf = s.ibuf := rfl
@[simp] theorem State.raiseInvalidSchemeId_obuf (c : BitVec 3) (n : Nat) : (s.raiseInvalidSchemeId c n).obuf = s.obuf := rfl
@[simp] theorem State.raiseInvalidSchemeId_lenw (c : BitVec 3) (n : Nat) : (s.raiseInvalidSchemeId c n).lenw = s.lenw := rfl
@[simp] theorem State.raiseInvalidSchemeId_edges (c : BitVec 3) (n : Nat) : (s.raiseInvalidSchemeId c n).edges = s.edges := rfl
@[simp] theorem State.raiseInvalidSchemeId_obufRdata (c : BitVec 3) (n : Nat) : (s.raiseInvalidSchemeId c n).obufRdata = s.obufRdata := rfl
@[simp] theorem State.raiseInvalidSchemeId_anyCount (c : BitVec 3) (n : Nat) : (s.raiseInvalidSchemeId c n).anyCount = s.anyCount := rfl

/-! ### `State.hardReset`: reset -/

@[simp] theorem State.hardReset_pol : (s.hardReset).pol = .plus := rfl
@[simp] theorem State.hardReset_zcnt : (s.hardReset).zcnt = 0 := rfl
@[simp] theorem State.hardReset_bal : (s.hardReset).bal = 0 := rfl
@[simp] theorem State.hardReset_pos : (s.hardReset).pos = 0 := rfl
@[simp] theorem State.hardReset_scheme : (s.hardReset).scheme = 0 := rfl
@[simp] theorem State.hardReset_len : (s.hardReset).len = 0 := rfl
@[simp] theorem State.hardReset_busy : (s.hardReset).busy = false := rfl
@[simp] theorem State.hardReset_done : (s.hardReset).done = false := rfl
@[simp] theorem State.hardReset_err : (s.hardReset).err = false := rfl
@[simp] theorem State.hardReset_errcode : (s.hardReset).errcode = 0 := rfl
@[simp] theorem State.hardReset_ibuf : (s.hardReset).ibuf = [] := rfl
@[simp] theorem State.hardReset_obuf : (s.hardReset).obuf = [] := rfl
@[simp] theorem State.hardReset_lenw : (s.hardReset).lenw = s.lenw := rfl
@[simp] theorem State.hardReset_edges : (s.hardReset).edges = s.edges := rfl
@[simp] theorem State.hardReset_obufRdata : (s.hardReset).obufRdata = s.obufRdata := rfl
@[simp] theorem State.hardReset_anyCount : (s.hardReset).anyCount = s.anyCount := rfl

/-! ### `hostReadObuf`: a host read -/

@[simp] theorem hostReadObuf_pol (k : Nat) : (hostReadObuf k s).pol = s.pol := by
  unfold hostReadObuf; split <;> rfl
@[simp] theorem hostReadObuf_zcnt (k : Nat) : (hostReadObuf k s).zcnt = s.zcnt := by
  unfold hostReadObuf; split <;> rfl
@[simp] theorem hostReadObuf_bal (k : Nat) : (hostReadObuf k s).bal = s.bal := by
  unfold hostReadObuf; split <;> rfl
@[simp] theorem hostReadObuf_pos (k : Nat) : (hostReadObuf k s).pos = s.pos := by
  unfold hostReadObuf; split <;> rfl
@[simp] theorem hostReadObuf_scheme (k : Nat) : (hostReadObuf k s).scheme = s.scheme := by
  unfold hostReadObuf; split <;> rfl
@[simp] theorem hostReadObuf_len (k : Nat) : (hostReadObuf k s).len = s.len := by
  unfold hostReadObuf; split <;> rfl
@[simp] theorem hostReadObuf_busy (k : Nat) : (hostReadObuf k s).busy = s.busy := by
  unfold hostReadObuf; split <;> rfl
@[simp] theorem hostReadObuf_done (k : Nat) : (hostReadObuf k s).done = s.done := by
  unfold hostReadObuf; split <;> rfl
@[simp] theorem hostReadObuf_err (k : Nat) : (hostReadObuf k s).err = s.err := by
  unfold hostReadObuf; split <;> rfl
@[simp] theorem hostReadObuf_errcode (k : Nat) : (hostReadObuf k s).errcode = s.errcode := by
  unfold hostReadObuf; split <;> rfl
@[simp] theorem hostReadObuf_ibuf (k : Nat) : (hostReadObuf k s).ibuf = s.ibuf := by
  unfold hostReadObuf; split <;> rfl
@[simp] theorem hostReadObuf_obuf (k : Nat) : (hostReadObuf k s).obuf = s.obuf := by
  unfold hostReadObuf; split <;> rfl
@[simp] theorem hostReadObuf_lenw (k : Nat) : (hostReadObuf k s).lenw = s.lenw := by
  unfold hostReadObuf; split <;> rfl
@[simp] theorem hostReadObuf_edges (k : Nat) : (hostReadObuf k s).edges = s.edges := by
  unfold hostReadObuf; split <;> rfl

/-! ### `State.plainOutput`: a unit that keeps its registers -/

@[simp] theorem State.plainOutput_write (w : ObufWrite) : (s.plainOutput w).write = w := rfl
@[simp] theorem State.plainOutput_pol (w : ObufWrite) : (s.plainOutput w).pol = s.pol := rfl
@[simp] theorem State.plainOutput_zcnt (w : ObufWrite) : (s.plainOutput w).zcnt = s.zcnt := rfl
@[simp] theorem State.plainOutput_bal (w : ObufWrite) : (s.plainOutput w).bal = s.bal := rfl
@[simp] theorem State.plainOutput_stride (w : ObufWrite) : (s.plainOutput w).stride = 1 := rfl

end Sys2Proof.Machine
end

