-- ==== Sys2Proof/Laws/Ops.lean ====
section
/-! SUPPORT. What each shared operation can do, said once: the emissions, the mux, START, the host's
accesses. -/

namespace Sys2Proof.Machine

/-! ## Levels -/

@[simp] theorem dbl_length (ls : List Level) : (dbl ls).length = 2 * ls.length := by
  induction ls with
  | nil => rfl
  | cons l ls ih => simp only [dbl, List.length_cons, ih]; omega

/-- Both samples of a doubled level are that level (00_scope.md R9). -/
theorem dbl_getElem? (ls : List Level) (k : Nat) : (dbl ls)[k]? = ls[k / 2]? := by
  induction ls generalizing k with
  | nil => simp [dbl]
  | cons l ls ih =>
    match k with
    | 0 => rfl
    | 1 => rfl
    | k + 2 => simp [dbl, ih, show (k + 2) / 2 = k / 2 + 1 by omega]

@[simp] theorem Pol.flip_flip (p : Pol) : p.flip.flip = p := by cases p <;> rfl

@[simp] theorem Pol.toInt_flip (p : Pol) : p.flip.toInt = -p.toInt := by cases p <;> rfl

@[simp] theorem Sym.ofCode_code (b : Sym) : Sym.ofCode b.code = b := by cases b <;> rfl

/-! ## Reads of IBUF -/

theorem readSymbol_eq_ok {s : State} {i : Nat} {b : Sym} :
    readSymbol s i = .ok b ↔ i < s.len ∧ s.ibuf.read i = some b := by
  unfold readSymbol
  split
  · next h => cases s.ibuf.read i <;> simp [h]
  · next h => simp [h]

/-- `memRead` gives `m` symbols, each read by `readSymbol`. -/
theorem memRead_eq_ok {s : State} {m i : Nat} {bs : List Sym} (h : memRead s i m = .ok bs) :
    bs.length = m ∧ ∀ j < m, readSymbol s (i + j) = .ok (bs.getD j .space) := by
  induction m generalizing i bs with
  | zero => simp [memRead] at h; subst h; simp
  | succ m ih =>
    simp only [memRead] at h
    split at h
    · cases h
    · next b hb =>
      split at h
      · cases h
      · next bs' hbs =>
        cases h
        obtain ⟨hlen, hget⟩ := ih hbs
        refine ⟨by simp [hlen], fun j hj => ?_⟩
        cases j with
        | zero => simpa using hb
        | succ j =>
          have := hget j (by omega)
          rw [show i + (j + 1) = i + 1 + j by omega, this]
          rfl

/-- In a frame whose cells are written, every read inside `LEN` gives a symbol. -/
theorem readSymbol_of_written {s : State} (hw : cellsWritten s.ibuf s.len) {i : Nat} (hi : i < s.len) :
    ∃ b, readSymbol s i = .ok b := by
  obtain ⟨b, hb⟩ := Option.isSome_iff_exists.1 (hw i hi)
  exact ⟨b, readSymbol_eq_ok.2 ⟨hi, hb⟩⟩

theorem memRead_of_written {s : State} (hw : cellsWritten s.ibuf s.len) {i m : Nat}
    (hi : i + m ≤ s.len) : ∃ bs, memRead s i m = .ok bs := by
  induction m generalizing i with
  | zero => exact ⟨[], rfl⟩
  | succ m ih =>
    obtain ⟨b, hb⟩ := readSymbol_of_written hw (i := i) (by omega)
    obtain ⟨bs, hbs⟩ := ih (i := i + 1) (by omega)
    exact ⟨b :: bs, by simp [memRead, hb, hbs]⟩

@[simp] theorem frameWritten_iff {s : State} {n : Nat} :
    s.frameWritten n = true ↔ cellsWritten s.ibuf n := by
  simp [State.frameWritten]

/-! ## The mux and the commit -/

/-- A commit of a write that is in range. -/
theorem commit_of_inRange {s : State} {u : UnitOutput} (h0 : 0 ≤ u.write.cell)
    (hlen : u.write.cell + u.write.levels.length ≤ 2 * s.len) : commit u s = .next (s.committed u) := by
  simp [commit, writeInRange, h0, hlen]

/-- What a commit that completes has done. -/
theorem commit_next {s t : State} {u : UnitOutput} (h : commit u s = .next t) :
    t = s.committed u ∧ 0 ≤ u.write.cell ∧ u.write.cell + u.write.levels.length ≤ 2 * s.len := by
  simp only [commit] at h
  split at h
  · next hr =>
    simp only [writeInRange, Bool.and_eq_true, decide_eq_true_eq] at hr
    cases h
    exact ⟨rfl, hr⟩
  · cases h

/-- The selected unit of a running frame acts. -/
theorem mux_selected {s : State} {unit : BitVec 3} (u : UnitOutput) (hb : s.busy = true)
    (hu : s.scheme = unit) : mux unit u s = commit u s := by
  simp [mux, hb, hu]

/-- A unit that is not selected, or any unit while the encoder is idle, changes nothing. -/
theorem mux_discarded {s : State} {unit : BitVec 3} (u : UnitOutput)
    (h : ¬(s.busy = true ∧ s.scheme = unit)) : mux unit u s = .next s := by
  simp only [mux]
  rw [if_neg (by simpa using h)]

/-- Everything a step of a unit can do when it completes. -/
theorem mux_next {s t : State} {unit : BitVec 3} {u : UnitOutput} (h : mux unit u s = .next t) :
    (s.busy = true ∧ s.scheme = unit ∧ commit u s = .next t) ∨
      (¬(s.busy = true ∧ s.scheme = unit) ∧ t = s) := by
  by_cases hs : s.busy = true ∧ s.scheme = unit
  · exact .inl ⟨hs.1, hs.2, by rwa [mux_selected u hs.1 hs.2] at h⟩
  · rw [mux_discarded u hs] at h
    cases h
    exact .inr ⟨hs, rfl⟩

/-! ## START -/

/-- Everything a START can do when it completes: it is dropped, raises InvalidSchemeId, or starts a
frame. -/
theorem start_next {s t : State} {c : BitVec 3} {n : Nat} (h : start c n s = .next t) :
    (s.busy = true ∧ t = s) ∨
      (s.busy = false ∧ 6 ≤ c.toNat ∧ t = s.raiseInvalidSchemeId c n) ∨
      (s.busy = false ∧ c.toNat < 6 ∧ 1 ≤ n ∧ cellsWritten s.ibuf n ∧ t = s.startFrame c n) := by
  simp only [start] at h
  split at h
  · next hb => cases h; exact .inl ⟨hb, rfl⟩
  · next hb =>
    have hb' : s.busy = false := by simpa using hb
    split at h
    · next hv =>
      cases h
      exact .inr (.inl ⟨hb', by simpa [validScheme] using hv, rfl⟩)
    · next hv =>
      split at h
      · cases h
      · next hn =>
        split at h
        · next hw =>
          cases h
          exact .inr (.inr ⟨hb', by simpa [validScheme] using hv, by omega, frameWritten_iff.1 hw, rfl⟩)
        · cases h

/-- Only the two breaches of 60_exceptions.md R132 make a START stop. -/
theorem start_stops {s : State} {c : BitVec 3} {n : Nat} :
    (∀ r, start c n s ≠ .fault r) ∧
      (∀ r, start c n s = .refused r →
        s.busy = false ∧ c.toNat < 6 ∧ (n = 0 ∨ ¬cellsWritten s.ibuf n)) := by
  unfold start
  refine ⟨fun r h => ?_, fun r h => ?_⟩ <;> split at h
  · cases h
  · split at h
    · cases h
    · split at h
      · cases h
      · split at h <;> cases h
  · cases h
  · next hb =>
    split at h
    · cases h
    · next hv =>
      have h1 : s.busy = false := by simpa using hb
      have h2 : c.toNat < 6 := by simpa [validScheme] using hv
      split at h
      · next hn => exact ⟨h1, h2, .inl hn⟩
      · split at h
        · cases h
        · next hw => exact ⟨h1, h2, .inr fun hc => hw (frameWritten_iff.2 hc)⟩

/-! ## Host accesses -/

/-- Everything a host write of IBUF can do when it completes. -/
theorem hostWriteIbuf_ok {s t : State} {w : SymbolWrite} (h : hostWriteIbuf w s = .ok t) :
    (w.addr < s.maxLen ∧ s.busy = false ∧
        t = { s with ibuf := s.ibuf.write w.addr (Sym.ofCode w.data) }) ∨
      (s.maxLen ≤ w.addr ∧ t = s) := by
  simp only [hostWriteIbuf] at h
  split at h
  · next ha =>
    split at h
    · cases h
    · next hb => cases h; exact .inl ⟨ha, by simpa using hb, rfl⟩
  · next ha => cases h; exact .inr ⟨by omega, rfl⟩

/-- The host's read of a valid sample delivers its code (30_encoding.md R54). -/
theorem hostReadObuf_of_sample {s : State} {k : Nat} {l : Level} (h : s.sampleAt k = some l) :
    hostReadObuf k s = { s with obufRdata := l.code } := by
  simp [hostReadObuf, h]

end Sys2Proof.Machine
end

