-- ==== Sys2Proof/Laws/Fetch.lean ====
section
/-! SUPPORT. Which step a key selects, what a fetch can find, and what a step of the machine can do. -/

namespace Sys2Proof.Machine

/-! ## Keys and rows -/

/-- The B8ZS rows of 30_encoding.md R59, on every key. -/
theorem decodeStep_b8zs (key : BitVec 9) :
    decodeStep 4 key =
      .ok (if key = 256#9 then .b8zsSubst else if key.getLsbD 7 then .b8zsMark else .b8zsZero) := by
  have all : ∀ a : Fin 16, ∀ b : Fin 32, decodeStep 4 (BitVec.ofNat 9 (32 * a.val + b.val)) =
      .ok (if BitVec.ofNat 9 (32 * a.val + b.val) = 256#9 then .b8zsSubst
        else if (BitVec.ofNat 9 (32 * a.val + b.val)).getLsbD 7 then .b8zsMark else .b8zsZero) := by
    decide
  have hk := key.isLt
  have h := all ⟨key.toNat / 32, by omega⟩ ⟨key.toNat % 32, by omega⟩
  simpa only [Nat.div_add_mod, BitVec.ofNat_toNat, BitVec.setWidth_eq] using h

/-- The key of the one-symbol schemes selects MARK or ZERO of the scheme. -/
theorem decodeStep_symbol (b : Sym) :
    decodeStep 0 (BitVec.ofNat 9 b.code.toNat) =
        .ok (match b with | .mark => .unipolarMark | .space => .unipolarZero) ∧
    decodeStep 1 (BitVec.ofNat 9 b.code.toNat) =
        .ok (match b with | .mark => .nrzLMark | .space => .nrzLZero) ∧
    decodeStep 2 (BitVec.ofNat 9 b.code.toNat) =
        .ok (match b with | .mark => .nrzIMark | .space => .nrzIZero) ∧
    decodeStep 3 (BitVec.ofNat 9 b.code.toNat) =
        .ok (match b with | .mark => .manchesterMark | .space => .manchesterZero) := by
  cases b <;> decide

/-- The HDB3 key selects by symbol, count and sign. -/
theorem decodeStep_hdb3 (b : Sym) (z : BitVec 2) (bal : Int) :
    decodeStep 5 (BitVec.ofNat 9
        (4 * b.code.toNat + (if z = 3 then 2 else 0) + (if bal < 0 then 1 else 0))) =
      .ok (match b with
        | .mark => .hdb3Mark
        | .space => if z = 3 then (if bal < 0 then .hdb3SubstB00V else .hdb3Subst000V)
            else .hdb3Zero) := by
  by_cases hz : z = 3 <;> by_cases hb : bal < 0 <;> cases b <;> simp only [hz, hb, if_true, if_false] <;>
    decide

/-- A window of eight symbols read as a number, bit 7 the first symbol (R57). -/
theorem b8zs_window_key (bs : List Sym) (h : bs.length = 8) :
    ((BitVec.ofNat 9 (256 + symbolsValue bs) = 256#9) ↔ bs = List.replicate 8 .space) ∧
      ((BitVec.ofNat 9 (256 + symbolsValue bs)).getLsbD 7 = decide (bs.getD 0 .space = .mark)) := by
  match bs, h with
  | [a, b, c, d, e, f, g, i], _ =>
    have key : ∀ a b c d e f g i : Bool,
        let y : Bool → Sym := fun t => if t then .mark else .space
        let bs := [y a, y b, y c, y d, y e, y f, y g, y i]
        ((BitVec.ofNat 9 (256 + symbolsValue bs) = 256#9) ↔ bs = List.replicate 8 .space) ∧
          ((BitVec.ofNat 9 (256 + symbolsValue bs)).getLsbD 7 = decide (bs.getD 0 .space = .mark)) := by
      decide
    have hy : ∀ x : Sym, (if decide (x = .mark) then Sym.mark else .space) = x := by
      intro x; cases x <;> rfl
    have := key (decide (a = .mark)) (decide (b = .mark)) (decide (c = .mark)) (decide (d = .mark))
      (decide (e = .mark)) (decide (f = .mark)) (decide (g = .mark)) (decide (i = .mark))
    simpa only [hy] using this

/-! ## What `selectStep` selects -/

/-- Everything that step selection can select, scheme by scheme, with what it has read. -/
theorem selectStep_cases {s : State} {i : Instr} (h : selectStep s = .ok i) :
    (∃ b, readSymbol s s.pos = .ok b ∧
      ((s.scheme = 0 ∧ i = match b with | .mark => .unipolarMark | .space => .unipolarZero) ∨
       (s.scheme = 1 ∧ i = match b with | .mark => .nrzLMark | .space => .nrzLZero) ∨
       (s.scheme = 2 ∧ i = match b with | .mark => .nrzIMark | .space => .nrzIZero) ∨
       (s.scheme = 3 ∧ i = match b with | .mark => .manchesterMark | .space => .manchesterZero) ∨
       (s.scheme = 5 ∧ i = match b with
          | .mark => .hdb3Mark
          | .space => if s.zcnt = 3 then (if s.bal < 0 then .hdb3SubstB00V else .hdb3Subst000V)
              else .hdb3Zero))) ∨
    (s.scheme = 4 ∧ s.pos + 8 ≤ s.len ∧ ∃ w, memRead s s.pos 8 = .ok w ∧
      i = if w = List.replicate 8 .space then .b8zsSubst
        else match w.getD 0 .space with | .mark => .b8zsMark | .space => .b8zsZero) ∨
    (s.scheme = 4 ∧ ¬s.pos + 8 ≤ s.len ∧ ∃ b, readSymbol s s.pos = .ok b ∧
      i = match b with | .mark => .b8zsMark | .space => .b8zsZero) := by
  unfold selectStep at h
  split at h
  · cases h
  next key hkey =>
  split at h
  next i' hi =>
    cases h
    obtain ⟨f, hf⟩ : ∃ f : Fin 8, s.scheme = BitVec.ofFin f := ⟨s.scheme.toFin, rfl⟩
    have hsym : symbolKey s = .ok key → ∃ b, readSymbol s s.pos = .ok b ∧
        key = BitVec.ofNat 9 b.code.toNat := by
      intro hs
      unfold symbolKey at hs
      split at hs
      · cases hs
      · next b hb => cases hs; exact ⟨b, hb, rfl⟩
    rw [stepKey, hf] at hkey
    rw [hf] at hi
    match f with
    | 0 =>
      obtain ⟨b, hb, rfl⟩ := hsym hkey
      refine .inl ⟨b, hb, .inl ⟨hf, ?_⟩⟩
      exact Except.ok.inj (hi.symm.trans (decodeStep_symbol b).1)
    | 1 =>
      obtain ⟨b, hb, rfl⟩ := hsym hkey
      refine .inl ⟨b, hb, .inr (.inl ⟨hf, ?_⟩)⟩
      exact Except.ok.inj (hi.symm.trans (decodeStep_symbol b).2.1)
    | 2 =>
      obtain ⟨b, hb, rfl⟩ := hsym hkey
      refine .inl ⟨b, hb, .inr (.inr (.inl ⟨hf, ?_⟩))⟩
      exact Except.ok.inj (hi.symm.trans (decodeStep_symbol b).2.2.1)
    | 3 =>
      obtain ⟨b, hb, rfl⟩ := hsym hkey
      refine .inl ⟨b, hb, .inr (.inr (.inr (.inl ⟨hf, ?_⟩)))⟩
      exact Except.ok.inj (hi.symm.trans (decodeStep_symbol b).2.2.2)
    | 4 =>
      have hi' := Except.ok.inj (hi.symm.trans (decodeStep_b8zs key))
      replace hkey : b8zsKey s = .ok key := hkey
      unfold b8zsKey at hkey
      split at hkey
      · next hfit =>
        split at hkey
        · cases hkey
        next w hw =>
        cases hkey
        have hk := b8zs_window_key w (memRead_eq_ok hw).1
        refine .inr (.inl ⟨hf, by simpa [windowFits] using hfit, w, hw, ?_⟩)
        rw [hi', hk.2]
        by_cases hz : w = List.replicate 8 .space
        · rw [if_pos hz, if_pos (hk.1.2 hz)]
        · rw [if_neg hz, if_neg (fun hc => hz (hk.1.1 hc))]
          cases w.getD 0 .space <;> simp
      · next hfit =>
        split at hkey
        · cases hkey
        next b hb =>
        cases hkey
        refine .inr (.inr ⟨hf, by simpa [windowFits] using hfit, b, hb, ?_⟩)
        rw [hi']
        cases b <;> rfl
    | 5 =>
      replace hkey : hdb3Key s = .ok key := hkey
      unfold hdb3Key at hkey
      split at hkey
      · cases hkey
      next b hb =>
      cases hkey
      refine .inl ⟨b, hb, .inr (.inr (.inr (.inr ⟨hf, ?_⟩)))⟩
      exact Except.ok.inj (hi.symm.trans (decodeStep_hdb3 b s.zcnt s.bal))
    | 6 => cases hkey
    | 7 => cases hkey
  · cases h

/-! ## What a step can do -/

/-- A step that completes has found nothing to run, or has run what it fetched. -/
theorem step_next {s t : State} (h : step s = .next t) :
    fetch s = .ok (.idle t) ∨ ∃ i r, fetch s = .ok (.run i r) ∧ exec i r = .next t := by
  unfold step at h
  split at h
  · next u hu => cases h; exact .inl hu
  · next i r hr => exact .inr ⟨i, r, hr, h⟩
  · cases h
  · cases h

/-- Everything an edge can lead to, when it leads to something. -/
theorem fetchEdge_ok {e : Edge} {s : State} {f : Fetched} (h : fetchEdge e s = .ok f) :
    e.fits s.lenw = true ∧
      ((e.rst = true ∧ f = .idle (edgeRead e s).hardReset) ∨
       (e.rst = false ∧ ∃ t, edgeWrite e (edgeRead e s) = .ok t ∧
         ((t.busy = true ∧ e.stepEnds = true ∧ fetchStep t = .ok f) ∨
          (¬(t.busy = true ∧ e.stepEnds = true) ∧ fetchCommand e.cmd t = .ok f)))) := by
  unfold fetchEdge at h
  split at h
  · cases h
  next hfit =>
  refine ⟨by simpa using hfit, ?_⟩
  split at h
  · next hr => cases h; exact .inl ⟨hr, rfl⟩
  next hr =>
  refine .inr ⟨by simpa using hr, ?_⟩
  split at h
  · cases h
  next t ht =>
  refine ⟨t, ht, ?_⟩
  split at h
  · next hb => simp only [Bool.and_eq_true] at hb; exact .inl ⟨hb.1, hb.2, h⟩
  · next hb => exact .inr ⟨by simpa only [Bool.and_eq_true] using hb, h⟩

/-- Everything the command ports can lead to. -/
theorem fetchCommand_ok {c : Option Command} {s : State} {f : Fetched}
    (h : fetchCommand c s = .ok f) :
    (c = none ∧ f = .idle s) ∨
      ∃ d i, c = some d ∧ decode s.lenw (commandWord d.scheme d.len) = .ok i ∧ f = .run i s := by
  unfold fetchCommand at h
  split at h
  · cases h; exact .inl ⟨rfl, rfl⟩
  · split at h
    · next i hi => cases h; exact .inr ⟨_, i, rfl, hi, rfl⟩
    · cases h

/-- A command whose length fits decodes to the START of its scheme. -/
theorem decode_commandWord {lenw len : Nat} (scheme : BitVec 3) (h : len < 2 ^ lenw) :
    decode lenw (commandWord scheme len) = .ok (startInstr scheme len) := by
  have hs := scheme.isLt
  have hw : commandWord scheme len < 2 ^ (lenw + 3) := by
    rw [commandWord, Nat.pow_add]; omega
  have h1 : wordScheme (commandWord scheme len) = scheme := by
    apply BitVec.eq_of_toNat_eq
    simp only [wordScheme, commandWord, BitVec.toNat_ofNat]
    omega
  have h2 : wordLen (commandWord scheme len) = len := by
    simp only [wordLen, commandWord]
    omega
  rw [decode, if_pos hw, h1, h2]

/-- Executing the START of a scheme is `start` with its code. -/
theorem exec_startInstr (scheme : BitVec 3) (len : Nat) (s : State) :
    exec (startInstr scheme len) s = start scheme len s := by
  obtain ⟨f, rfl⟩ : ∃ f : Fin 8, scheme = BitVec.ofFin f := ⟨scheme.toFin, rfl⟩
  match f with
  | 0 | 1 | 2 | 3 | 4 | 5 | 6 | 7 => rfl

/-- A host read changes nothing but the read port and the count of free values. -/
theorem edgeRead_frame (e : Edge) (s : State) :
    ∃ d n, edgeRead e s = { s with obufRdata := d, anyCount := n } := by
  unfold edgeRead hostReadObuf
  split
  · exact ⟨_, _, rfl⟩
  · split <;> exact ⟨_, _, rfl⟩

/-- A host write that is not refused changes nothing but IBUF. -/
theorem edgeWrite_frame {e : Edge} {s t : State} (h : edgeWrite e s = .ok t) :
    ∃ m, t = { s with ibuf := m } := by
  unfold edgeWrite at h
  split at h
  · cases h; exact ⟨_, rfl⟩
  · rcases hostWriteIbuf_ok h with h | h
    · exact ⟨_, h.2.2⟩
    · exact ⟨s.ibuf, h.2⟩

/-- An idle machine with one START pending executes that START. -/
theorem step_startEdge {s : State} {scheme : BitVec 3} {len : Nat} (hb : s.busy = false)
    (he : s.edges = [startEdge scheme len]) (hl : len < 2 ^ s.lenw) :
    step s = start scheme len { s with edges := [] } := by
  have hf : Edge.fits s.lenw { cmd := some { scheme := scheme, len := len } } = true := by
    simp [Edge.fits, Command.fits, hl]
  simp only [step, fetch, he, fetchEdge, startEdge, hf, edgeRead, edgeWrite, hb, fetchCommand,
    decode_commandWord _ hl]
  exact exec_startInstr _ _ _

end Sys2Proof.Machine
end

