-- ==== Sys2Proof/Laws/PerInstr.lean ====
section
/-! SUPPORT. A statement about every instruction as syntax: its encoding fits the place it stands in. -/

namespace Sys2Proof.Laws

/-- A command word fits `LENW + 3` bits (30_encoding.md R50); a step key fits the width of its scheme's
key, and the scheme is one of the six (R57 to R59). -/
def codeFits (lenw : Nat) : Code → Prop
  | .command w => w < 2 ^ (lenw + 3)
  | .key scheme bits => scheme.toNat < 6 ∧ bits.toNat < 2 ^ keyWidth scheme

/-- A command word of a length that fits, whatever its scheme code. -/
theorem commandWord_fits {lenw len : Nat} (scheme : BitVec 3) (h : len < 2 ^ lenw) :
    commandWord scheme len < 2 ^ (lenw + 3) := by
  have := scheme.isLt
  rw [commandWord, Nat.pow_add]
  omega

/-- The encoding of a well-formed instruction fits. -/
def EncodeFits.Statement (i : Instr) : Prop :=
  ∀ lenw, i.wf lenw = true → codeFits lenw (encode i)

theorem EncodeFits.unipolar (len : Nat) : EncodeFits.Statement (.unipolar len) :=
  fun _ h => commandWord_fits 0 (of_decide_eq_true h)
theorem EncodeFits.nrzL (len : Nat) : EncodeFits.Statement (.nrzL len) :=
  fun _ h => commandWord_fits 1 (of_decide_eq_true h)
theorem EncodeFits.nrzI (len : Nat) : EncodeFits.Statement (.nrzI len) :=
  fun _ h => commandWord_fits 2 (of_decide_eq_true h)
theorem EncodeFits.manchester (len : Nat) : EncodeFits.Statement (.manchester len) :=
  fun _ h => commandWord_fits 3 (of_decide_eq_true h)
theorem EncodeFits.b8zs (len : Nat) : EncodeFits.Statement (.b8zs len) :=
  fun _ h => commandWord_fits 4 (of_decide_eq_true h)
theorem EncodeFits.hdb3 (len : Nat) : EncodeFits.Statement (.hdb3 len) :=
  fun _ h => commandWord_fits 5 (of_decide_eq_true h)
theorem EncodeFits.illegal6 (len : Nat) : EncodeFits.Statement (.illegal6 len) :=
  fun _ h => commandWord_fits 6 (of_decide_eq_true h)
theorem EncodeFits.illegal7 (len : Nat) : EncodeFits.Statement (.illegal7 len) :=
  fun _ h => commandWord_fits 7 (of_decide_eq_true h)
theorem EncodeFits.unipolarMark : EncodeFits.Statement .unipolarMark := fun _ _ => ⟨by decide, by decide⟩
theorem EncodeFits.unipolarZero : EncodeFits.Statement .unipolarZero := fun _ _ => ⟨by decide, by decide⟩
theorem EncodeFits.nrzLMark : EncodeFits.Statement .nrzLMark := fun _ _ => ⟨by decide, by decide⟩
theorem EncodeFits.nrzLZero : EncodeFits.Statement .nrzLZero := fun _ _ => ⟨by decide, by decide⟩
theorem EncodeFits.nrzIMark : EncodeFits.Statement .nrzIMark := fun _ _ => ⟨by decide, by decide⟩
theorem EncodeFits.nrzIZero : EncodeFits.Statement .nrzIZero := fun _ _ => ⟨by decide, by decide⟩
theorem EncodeFits.manchesterMark : EncodeFits.Statement .manchesterMark := fun _ _ => ⟨by decide, by decide⟩
theorem EncodeFits.manchesterZero : EncodeFits.Statement .manchesterZero := fun _ _ => ⟨by decide, by decide⟩
theorem EncodeFits.b8zsSubst : EncodeFits.Statement .b8zsSubst := fun _ _ => ⟨by decide, by decide⟩
theorem EncodeFits.b8zsMark : EncodeFits.Statement .b8zsMark := fun _ _ => ⟨by decide, by decide⟩
theorem EncodeFits.b8zsZero : EncodeFits.Statement .b8zsZero := fun _ _ => ⟨by decide, by decide⟩
theorem EncodeFits.hdb3Mark : EncodeFits.Statement .hdb3Mark := fun _ _ => ⟨by decide, by decide⟩
theorem EncodeFits.hdb3Zero : EncodeFits.Statement .hdb3Zero := fun _ _ => ⟨by decide, by decide⟩
theorem EncodeFits.hdb3Subst000V : EncodeFits.Statement .hdb3Subst000V := fun _ _ => ⟨by decide, by decide⟩
theorem EncodeFits.hdb3SubstB00V : EncodeFits.Statement .hdb3SubstB00V := fun _ _ => ⟨by decide, by decide⟩

end Sys2Proof.Laws
end

