-- ==== Sys2Proof/Laws/Runs.lean ====
section
/-! SUPPORT. Runs of several steps, one step at a time; and what `Encode` gives, case by case. -/

namespace Sys2Proof.Machine

@[simp] theorem run_zero (s : State) : Host.Core.run Sys2Proof.core 0 s = .next s := rfl

/-- A run of any machine goes on from the state that its first step answers. -/
theorem core_run_succ {M : Host.Core} {s u : M.State} (h : M.step s = .next u) (k : Nat) :
    M.run (k + 1) s = M.run k u := by
  simp only [Host.Core.run, h]

theorem run_succ {s u : State} (h : step s = .next u) (k : Nat) :
    Host.Core.run Sys2Proof.core (k + 1) s = Host.Core.run Sys2Proof.core k u :=
  core_run_succ (M := Sys2Proof.core) h k

/-- The step that ends a frame is a run of one step. -/
theorem runsToDone_one {s t : State} {n : Nat} (h : step s = .next t)
    (ht : t.done = true ∧ t.busy = false ∧ t.err = false ∧ t.len = n ∧ t.pos = n) :
    s.runsToDone 1 t n :=
  ⟨(run_succ h 0).trans rfl, ht.1, ht.2.1, ht.2.2.1, ht.2.2.2.1, ht.2.2.2.2, fun j h1 hj => by omega⟩

/-- A step that leaves the frame running adds one to the steps it needs. -/
theorem runsToDone_succ {s u t : State} {k n : Nat} (h : step s = .next u)
    (hu : u.busy = true ∧ u.done = false) (hr : u.runsToDone k t n) : s.runsToDone (k + 1) t n := by
  obtain ⟨hk, hd, hb, he, hl, hp, hrun⟩ := hr
  refine ⟨(run_succ h k).trans hk, hd, hb, he, hl, hp, fun j h1 hj => ?_⟩
  obtain ⟨j, rfl⟩ : ∃ i, j = i + 1 := ⟨j - 1, by omega⟩
  rw [State.stillRunningAfter, run_succ h j]
  rcases Nat.eq_zero_or_pos j with rfl | hj0
  · exact ⟨u, rfl, hu⟩
  · exact hrun j hj0 (by omega)

/-- A scheme has a sample list exactly when its code is valid. -/
theorem schemeSamples_isSome (scheme : BitVec 3) (bits : List Sym) :
    (schemeSamples scheme bits).isSome = true ↔ scheme.toNat < 6 := by
  obtain ⟨f, rfl⟩ : ∃ f : Fin 8, scheme = BitVec.ofFin f := ⟨scheme.toFin, rfl⟩
  match f with
  | 0 | 1 | 2 | 3 | 4 | 5 | 6 | 7 => simp [schemeSamples]

/-- When `Encode` gives a list, and which. -/
theorem encodeReference_samples {scheme : BitVec 3} {bits : List Sym} {y : List Level} :
    encodeReference scheme bits = .samples y ↔ bits ≠ [] ∧ schemeSamples scheme bits = some y := by
  unfold encodeReference
  cases schemeSamples scheme bits <;> cases bits <;> simp

/-- `Encode` is InvalidSchemeId exactly for the two codes without a scheme function. -/
theorem encodeReference_invalid {scheme : BitVec 3} {bits : List Sym} :
    encodeReference scheme bits = .invalidSchemeId ↔ schemeSamples scheme bits = none := by
  unfold encodeReference
  cases schemeSamples scheme bits <;> cases bits <;> simp

/-- `Encode` refuses exactly the empty bit string under a valid scheme, as an empty frame. -/
theorem encodeReference_refused {scheme : BitVec 3} {bits : List Sym} {why : Refusal} :
    encodeReference scheme bits = .refused why ↔
      (schemeSamples scheme bits).isSome = true ∧ bits = [] ∧ why = .emptyFrame := by
  unfold encodeReference
  cases schemeSamples scheme bits <;> cases bits <;> simp [eq_comm]

end Sys2Proof.Machine
end

