-- ==== Sys2Proof/Laws/Select.lean ====
section
/-! SUPPORT. The forward direction of step selection: what is selected, given what IBUF holds; and what
a committed step leaves behind, cell by cell. -/

namespace Sys2Proof.Machine

/-- With nothing on the ports, a step of a busy machine executes the selected step. -/
theorem step_of_selected {s : State} {i : Instr} (he : s.edges = []) (hb : s.busy = true)
    (h : selectStep s = .ok i) : step s = exec i s := by
  simp [step, fetch, he, hb, fetchStep, h]

/-- An accepted write of the selected unit in a frame: the next state is the committed one, the frame of
the step holds for the cells written, and each of them reads as the level written to it. -/
theorem mux_inFrame {s : State} {unit : BitVec 3} {u : UnitOutput} (h : s.inFrame unit) {c hi : Nat}
    (hc : u.write.cell = (c : Int)) (hhi : hi = c + u.write.levels.length) (hle : hi ≤ 2 * s.len) :
    mux unit u s = .next (s.committed u) ∧ s.stepFrame (s.committed u) u.stride c hi ∧
      ∀ j < u.write.levels.length, (s.committed u).obuf.read (c + j) = u.write.levels[j]? := by
  obtain ⟨hb, hu, _⟩ := h
  refine ⟨?_, ⟨⟨rfl, rfl, rfl, rfl, rfl⟩, ⟨rfl, rfl, rfl, rfl⟩, ⟨rfl, ?_, ?_⟩, ?_⟩, ?_⟩
  · rw [mux_selected _ hb hu, commit_of_inRange (by omega) (by omega)]
  · intro hend; simp [busyAfter, doneAfter, hend]
  · intro hend; simp [busyAfter, doneAfter, hend]
  · intro k hk
    simp only [State.committed_obuf, hc, Int.toNat_natCast]
    rcases hk with hk | hk
    · exact Memory.read_writeList_below _ _ _ hk
    · exact Memory.read_writeList_above _ _ _ (by omega)
  · intro j hj
    simp only [State.committed_obuf, hc, Int.toNat_natCast]
    exact Memory.read_writeList_inside _ _ _ hj

/-- The key of a one-symbol scheme is the symbol at `POS`. -/
theorem symbolKey_of_read {s : State} {b : Sym} (hp : s.pos < s.len)
    (hb : s.ibuf.read s.pos = some b) : symbolKey s = .ok (BitVec.ofNat 9 b.code.toNat) := by
  simp [symbolKey, readSymbol_eq_ok.2 ⟨hp, hb⟩]

/-- The HDB3 step that a symbol, the count and the balance select (44_hdb3.md R110). -/
def hdb3StepOf (b : Sym) (zcnt : BitVec 2) (bal : Int) : Instr :=
  match b with
  | .mark => .hdb3Mark
  | .space => if zcnt = 3 then (if bal < 0 then .hdb3SubstB00V else .hdb3Subst000V) else .hdb3Zero

theorem selectStep_hdb3 {s : State} {b : Sym} (hs : s.scheme = 5) (hp : s.pos < s.len)
    (hb : s.ibuf.read s.pos = some b) : selectStep s = .ok (hdb3StepOf b s.zcnt s.bal) := by
  have hk : stepKey s = hdb3Key s := by simp [stepKey, hs]
  simp only [selectStep, hk, hdb3Key, readSymbol_eq_ok.2 ⟨hp, hb⟩, hs]
  rw [decodeStep_hdb3]
  rfl

/-- A window of zeros reads as zeros. -/
theorem memRead_zeros {s : State} {i m : Nat} (h : i + m ≤ s.len)
    (hz : ∀ j < m, s.ibuf.read (i + j) = some .space) :
    memRead s i m = .ok (List.replicate m .space) := by
  induction m generalizing i with
  | zero => rfl
  | succ m ih =>
    have htail := ih (i := i + 1) (by omega) fun j hj => by
      have := hz (j + 1) (by omega)
      rwa [show i + (j + 1) = i + 1 + j by omega] at this
    have hhead := readSymbol_eq_ok.2 ⟨(by omega : i < s.len), hz 0 (by omega)⟩
    simp [memRead, hhead, htail, List.replicate_succ]

/-- A written window can be read. -/
theorem memRead_of_window {s : State} {i m : Nat} (h : i + m ≤ s.len)
    (hw : ∀ j < m, (s.ibuf.read (i + j)).isSome = true) : ∃ w, memRead s i m = .ok w := by
  induction m generalizing i with
  | zero => exact ⟨[], rfl⟩
  | succ m ih =>
    obtain ⟨w, htail⟩ := ih (i := i + 1) (by omega) fun j hj => by
      have := hw (j + 1) (by omega)
      rwa [show i + (j + 1) = i + 1 + j by omega] at this
    obtain ⟨b, hb⟩ := Option.isSome_iff_exists.1 (hw 0 (by omega))
    have hhead := readSymbol_eq_ok.2 ⟨(by omega : i < s.len), hb⟩
    exact ⟨b :: w, by simp [memRead, hhead, htail]⟩

/-- The window is eight zeros exactly when `ZeroRun8(POS)` holds. -/
theorem window_zeros_iff {s : State} {w : List Sym} (hf : s.pos + 8 ≤ s.len)
    (hw : memRead s s.pos 8 = .ok w) : w = List.replicate 8 .space ↔ s.zeroRunAhead := by
  constructor
  · intro hz
    refine ⟨hf, fun j hj => ?_⟩
    rw [(readSymbol_eq_ok.1 ((memRead_eq_ok hw).2 j hj)).2, hz]
    interval_cases j <;> rfl
  · intro hz
    have h0 := memRead_zeros hf hz.2
    rw [hw] at h0
    exact Except.ok.inj h0

/-- The plain B8ZS step of a symbol (43_b8zs.md R103, R104). -/
def b8zsPlainStepOf : Sym → Instr
  | .mark => .b8zsMark
  | .space => .b8zsZero

/-- The window test comes first; else the symbol at `POS` decides (43_b8zs.md R100). -/
theorem selectStep_b8zs_window {s : State} {b : Sym} (hs : s.scheme = 4) (hf : s.pos + 8 ≤ s.len)
    (hb : s.ibuf.read s.pos = some b) (hw : s.windowWritten) :
    (s.zeroRunAhead → selectStep s = .ok .b8zsSubst) ∧
      (¬s.zeroRunAhead → selectStep s = .ok (b8zsPlainStepOf b)) := by
  have hk : stepKey s = b8zsKey s := by simp [stepKey, hs]
  obtain ⟨w, hread⟩ := memRead_of_window hf (hw hf)
  have hkey := b8zs_window_key w (memRead_eq_ok hread).1
  have hfirst : w.getD 0 .space = b := by
    have h0 := (readSymbol_eq_ok.1 ((memRead_eq_ok hread).2 0 (by omega))).2
    rw [Nat.add_zero, hb] at h0
    exact (Option.some.inj h0).symm
  have hz := window_zeros_iff hf hread
  simp only [selectStep, hk, b8zsKey, windowFits, hf, decide_true, if_true, hread, hs]
  rw [decodeStep_b8zs, hkey.2, hfirst]
  refine ⟨fun h => by rw [if_pos (hkey.1.2 (hz.2 h))], fun h => ?_⟩
  rw [if_neg fun hc => h (hz.1 (hkey.1.1 hc))]
  cases b <;> rfl

end Sys2Proof.Machine
end

