-- ==== Sys2Proof/Tests/Slice0.lean ====
section
/-! SUPPORT. Tests of the model's own: well-formedness, one step per instruction with the values of the
spec's vectors and traces (95_test_vectors.md), and a witness for the hypotheses of every statement. -/

open Sys2Proof Sys2Proof.Machine

namespace Sys2Proof.Tests

/-! ## Helpers -/

/-- A bit string of the spec: `0` is a space, any other number a mark. -/
def bits (ns : List Nat) : List Sym := ns.map fun n => if n = 0 then .space else .mark

/-- An idle machine of 8-bit lengths whose IBUF holds a bit string. -/
def loaded (ns : List Nat) : State :=
  { State.resetOf 8 with ibuf := Memory.writeList [] 0 (bits ns) }

/-- The same machine inside a frame of that bit string, with zeros as the samples so far. -/
def inside (scheme : BitVec 3) (ns : List Nat) (pos : Nat) : State :=
  { loaded ns with
    scheme := scheme, len := ns.length, busy := true, pos := pos
    obuf := Memory.writeList [] 0 (List.replicate (2 * pos) .zero) }

/-- The same machine after a frame, with zeros as the samples. -/
def finished (scheme : BitVec 3) (ns : List Nat) : State :=
  { inside scheme ns ns.length with busy := false, done := true }

/-- The same machine with one edge pending. -/
def withEdge (e : Edge) (s : State) : State := { s with edges := [e] }

/-- The outcome is a next state with a property. -/
def nextWith (o : Host.Outcome State Fault Refusal) (p : State → Bool) : Bool :=
  match o with
  | .next t => p t
  | _ => false

/-- The outcome is this refusal. -/
def refusedWith (o : Host.Outcome State Fault Refusal) (r : Refusal) : Bool :=
  match o with
  | .refused r' => r' == r
  | _ => false

/-- The samples of the cells from `k`. -/
def samplesFrom (s : State) (k n : Nat) : List (Option Int) :=
  (List.range n).map fun j => (s.obuf.read (k + j)).map Level.toInt

/-! ## Well-formedness: an ill-formed term for each check -/

theorem test_wf_start_too_long : (Instr.unipolar 256).wf 8 = false := by decide
theorem test_wf_nrzL_too_long : (Instr.nrzL 256).wf 8 = false := by decide
theorem test_wf_nrzI_too_long : (Instr.nrzI 256).wf 8 = false := by decide
theorem test_wf_manchester_too_long : (Instr.manchester 256).wf 8 = false := by decide
theorem test_wf_b8zs_too_long : (Instr.b8zs 256).wf 8 = false := by decide
theorem test_wf_hdb3_too_long : (Instr.hdb3 256).wf 8 = false := by decide
theorem test_wf_illegal6_too_long : (Instr.illegal6 256).wf 8 = false := by decide
theorem test_wf_illegal7_too_long : (Instr.illegal7 2).wf 1 = false := by decide
theorem test_wf_longest_start : (Instr.hdb3 255).wf 8 = true := by decide
theorem test_fits_command : (startEdge 0 256).fits 8 = false := by decide
theorem test_fits_ibufAddr : Edge.fits 8 { ibufWrite := some ⟨256, 0⟩ } = false := by decide
theorem test_fits_obufAddr : Edge.fits 8 { obufAddr := some 512 } = false := by decide
theorem test_unfit_edge_refused :
    refusedWith (step (withEdge (startEdge 0 256) State.reset)) .pinsOutOfWidth = false ∧
    refusedWith (step (withEdge (startEdge 0 256) (State.resetOf 8))) .pinsOutOfWidth = true := by
  decide
theorem test_decode_rejects_wide_word : decode 8 (2 ^ 11) = .error .wordTooWide := by decide
theorem test_decode_rejects_wide_key : decodeStep 5 8 = .error .keyTooWide := by decide
theorem test_decode_rejects_scheme : decodeStep 6 0 = .error .noSuchScheme := by decide
theorem test_memory_wf : Memory.wf [(1, Sym.mark), (0, .mark)] = false := by decide

/-! ## START and the error entry (vectors V-CTL of 95_test_vectors.md section 2.7) -/

/-- V-CTL-2: START manchester, 2 from idle. -/
theorem test_start_manchester :
    nextWith (step (withEdge (startEdge 3 2) (loaded [1, 0]))) (fun t =>
      t.busy && !t.done && !t.err && t.scheme == 3 && t.len == 2 && t.pos == 0 && t.pol == .plus &&
        t.zcnt == 0 && t.bal == 0 && t.edges == []) = true := by decide

/-- R70's example: START nrz-l, 5. -/
theorem test_start_nrzL :
    nextWith (step (withEdge (startEdge 1 5) (loaded [1, 0, 1, 0, 1]))) (fun t =>
      t.busy && t.scheme == 1 && t.len == 5) = true := by decide

/-- P5: one IBUF image, the other schemes. -/
theorem test_start_unipolar :
    nextWith (step (withEdge (startEdge 0 2) (loaded [1, 1]))) (fun t => t.busy && t.scheme == 0) = true := by
  decide
/-- V-CTL-5: after an error, a valid START clears ERR and ERRCODE. -/
theorem test_start_nrzI_after_error :
    nextWith (step (withEdge (startEdge 2 1) { loaded [1] with scheme := 6, len := 5, err := true, errcode := 1 }))
      (fun t => t.busy && !t.err && t.errcode == 0 && t.scheme == 2 && t.len == 1) = true := by decide
theorem test_start_b8zs :
    nextWith (step (withEdge (startEdge 4 2) (loaded [1, 1]))) (fun t => t.busy && t.scheme == 4) = true := by
  decide
theorem test_start_hdb3 :
    nextWith (step (withEdge (startEdge 5 2) (loaded [1, 1]))) (fun t => t.busy && t.scheme == 5) = true := by
  decide

/-- V-CTL-3: START 6, 5. -/
theorem test_start_illegal6 :
    nextWith (step (withEdge (startEdge 6 5) (State.resetOf 8))) (fun t =>
      !t.busy && !t.done && t.err && t.errcode == 1 && t.scheme == 6 && t.len == 5 && t.obuf == []) = true := by
  decide

/-- V-CTL-4: START 7, 0: the empty length is not examined. -/
theorem test_start_illegal7 :
    nextWith (step (withEdge (startEdge 7 0) (State.resetOf 8))) (fun t =>
      t.err && t.errcode == 1 && t.scheme == 7 && t.len == 0) = true := by decide

/-- V-CTL-6: START 7, 4 while busy changes nothing. -/
theorem test_start_while_busy :
    nextWith (step (withEdge (startEdge 7 4) (inside 1 [1, 0] 0))) (fun t => t == inside 1 [1, 0] 0) = true := by
  decide

/-- V-CTL-7: START nrz-l, 0 is refused. -/
theorem test_start_empty_refused :
    refusedWith (step (withEdge (startEdge 1 0) (loaded [1]))) .emptyFrame = true := by decide

/-- D27: a frame with an unwritten cell is refused. -/
theorem test_start_unwritten_refused :
    refusedWith (step (withEdge (startEdge 1 2) (loaded [1]))) .ibufUnwritten = true := by decide

/-! ## Encode (R82) -/

/-- R82: `Encode(sch, [])` is refuse, and under an invalid scheme it is InvalidSchemeId (V-CTL-4, R133). -/
theorem test_encode_empty :
    encodeReference 0 [] = .refused .emptyFrame ∧ encodeReference 7 [] = .invalidSchemeId := by decide

/-- V-HDB3-5 "0000": `[0,0,0,0,0,0,-1,-1]`. -/
theorem test_encode_hdb3 :
    encodeReference 5 (bits [0, 0, 0, 0]) =
      .samples [.zero, .zero, .zero, .zero, .zero, .zero, .minus, .minus] := by decide

/-! ## Steps (traces P1 to P3b, examples of the rules) -/

/-- V-UNI-3 "101", first symbol. -/
theorem test_unipolarMark :
    nextWith (step (inside 0 [1, 0, 1] 0)) (fun t => samplesFrom t 0 2 == [some 1, some 1] && t.pos == 1 &&
      t.busy) = true := by decide
theorem test_unipolarZero :
    nextWith (step (inside 0 [1, 0, 1] 1)) (fun t => samplesFrom t 2 2 == [some 0, some 0]) = true := by decide

/-- P1 steps 5 and 2. -/
theorem test_nrzLMark :
    nextWith (step (inside 1 [1, 0, 1, 0, 1] 4)) (fun t => samplesFrom t 8 2 == [some (-1), some (-1)] &&
      t.pos == 5 && !t.busy && t.done) = true := by decide
theorem test_nrzLZero :
    nextWith (step (inside 1 [1, 0, 1, 0, 1] 1)) (fun t => samplesFrom t 2 2 == [some 1, some 1]) = true := by
  decide

/-- R87 "1010": flip before emitting, then hold. -/
theorem test_nrzIMark :
    nextWith (step (inside 2 [1, 0, 1, 0] 0)) (fun t => samplesFrom t 0 2 == [some (-1), some (-1)] &&
      t.pol == .minus) = true := by decide
theorem test_nrzIZero :
    nextWith (step { inside 2 [1, 0, 1, 0] 1 with pol := .minus }) (fun t =>
      samplesFrom t 2 2 == [some (-1), some (-1)] && t.pol == .minus) = true := by decide

/-- S5 "10": `[1,-1,-1,1]`. -/
theorem test_manchesterMark :
    nextWith (step (inside 3 [1, 0] 0)) (fun t => samplesFrom t 0 2 == [some 1, some (-1)]) = true := by decide
theorem test_manchesterZero :
    nextWith (step (inside 3 [1, 0] 1)) (fun t => samplesFrom t 2 2 == [some (-1), some 1] && t.done) = true := by
  decide

/-- V-B8ZS-7 at `POS = 1`: the block with `V = -1`, ending exactly at `LEN`. -/
theorem test_b8zsSubst :
    nextWith (step { inside 4 [1, 0, 0, 0, 0, 0, 0, 0, 0] 1 with pol := .minus }) (fun t =>
      samplesFrom t 2 16 == [0, 0, 0, 0, 0, 0, -1, -1, 0, 0, 0, 0, 0, 0, 1, 1].map some &&
        t.pol == .plus && t.pos == 9 && t.done && !t.busy) = true := by decide

/-- P3b step 2: a mark, and step 1: a zero whose window holds a mark. -/
theorem test_b8zsMark :
    nextWith (step (inside 4 [0, 1, 0, 0, 0, 0, 0, 0, 0, 0] 1)) (fun t =>
      samplesFrom t 2 2 == [some 1, some 1] && t.pol == .minus && t.pos == 2) = true := by decide
theorem test_b8zsZero :
    nextWith (step (inside 4 [0, 1, 0, 0, 0, 0, 0, 0, 0, 0] 0)) (fun t =>
      samplesFrom t 0 2 == [some 0, some 0] && t.pol == .plus && t.pos == 1) = true := by decide
/-- V-B8ZS-10 at `POS = 1`: seven trailing zeros are plain. -/
theorem test_b8zsZero_tail :
    nextWith (step (inside 4 [1, 0, 0, 0, 0, 0, 0, 0] 1)) (fun t =>
      samplesFrom t 2 2 == [some 0, some 0] && t.pos == 2) = true := by decide

/-- P2 step 5: `BAL` goes from -1 to -2, `POL` from -1 to +1. -/
theorem test_hdb3Mark :
    nextWith (step { inside 5 [0, 0, 0, 0, 1, 0, 0, 0, 0, 1] 4 with pol := .minus, bal := -1 }) (fun t =>
      samplesFrom t 8 2 == [some (-1), some (-1)] && t.bal == -2 && t.pol == .plus && t.zcnt == 0 &&
        t.pos == 5) = true := by decide

/-- P2 step 3. -/
theorem test_hdb3Zero :
    nextWith (step { inside 5 [0, 0, 0, 0, 1, 0, 0, 0, 0, 1] 2 with zcnt := 2 }) (fun t =>
      samplesFrom t 4 2 == [some 0, some 0] && t.zcnt == 3 && t.bal == 0 && t.pol == .plus) = true := by decide

/-- P2 step 4: the tie `BAL = 0` takes 000V. -/
theorem test_hdb3Subst000V :
    nextWith (step { inside 5 [0, 0, 0, 0, 1, 0, 0, 0, 0, 1] 3 with zcnt := 3 }) (fun t =>
      samplesFrom t 0 8 == [0, 0, 0, 0, 0, 0, -1, -1].map some && t.pol == .minus && t.zcnt == 0 &&
        t.bal == -1 && t.pos == 4) = true := by decide

/-- P2 step 9: B00V rewrites the cells 10 to 17, `BAL` stays -2. -/
theorem test_hdb3SubstB00V :
    nextWith (step { inside 5 [0, 0, 0, 0, 1, 0, 0, 0, 0, 1] 8 with zcnt := 3, bal := -2 }) (fun t =>
      samplesFrom t 10 8 == [-1, -1, 0, 0, 0, 0, -1, -1].map some && t.pol == .plus && t.zcnt == 0 &&
        t.bal == -2 && t.pos == 9 && samplesFrom t 8 2 == [some 0, some 0]) = true := by decide

/-! ## The host's operations -/

/-- R78: on one edge the write comes before the START. -/
theorem test_write_before_start :
    nextWith (step (withEdge { startEdge 2 1 with ibufWrite := some ⟨0, 1⟩ } (State.resetOf 8))) (fun t =>
      t.busy && t.ibuf.read 0 == some .mark) = true := by decide

/-- V-CTL-10 with a START and a write on the same edge: reset wins. -/
theorem test_reset_wins :
    nextWith (step (withEdge { startEdge 1 1 with rst := true, ibufWrite := some ⟨0, 1⟩ } (inside 1 [1, 0] 1)))
      (fun t => t == State.resetOf 8) = true := by decide

/-- R79: after `encode("manchester", "10")` the read of `k = 1` returns -1, code `11`. -/
theorem test_host_read :
    nextWith (step (withEdge { obufAddr := some 1 }
      { finished 3 [1, 0] with obuf := Memory.writeList [] 0 [.plus, .minus, .minus, .plus] })) (fun t =>
      t.obufRdata == 0b11 && t.done && t.anyCount == 0) = true := by decide

/-- V-CTL-9: the read of `OBUF[4]` with `LEN = 2` is a free value: one more is counted. -/
theorem test_host_read_any : (hostReadObuf 4 (finished 3 [1, 0])).anyCount = 1 := by decide

/-- R18: STATUS with DONE only is `00010`, with ERR and ERRCODE 1 is `01100`. -/
theorem test_status_word :
    (finished 1 [1]).statusWord = 0b00010 ∧
    ((State.resetOf 8).raiseInvalidSchemeId 7 1).statusWord = 0b01100 := by decide

/-- R15 to R17: SCHEME, LEN and CTRL by register number. -/
theorem test_read_register :
    (finished 4 [1, 0]).readRegister 0 = 4 ∧ (finished 4 [1, 0]).readRegister 1 = 2 ∧
    (finished 4 [1, 0]).readRegister 2 = 0 := by decide

/-- The host's probe: the word of row MANCHESTER with a length of 2, run as the first step after reset. -/
theorem test_fetch_word :
    decodeTableWord 8 0b10_011 = some (.manchester 2) ∧
    nextWith (step (State.reset.withFetchWord 8 0b10_011)) (fun t => t.busy && t.scheme == 3 && t.len == 2) =
      true := by decide

/-! ## Witnesses: the hypotheses of each statement are met together -/

theorem witness_AcceptedStartInitialisesFrame :
    (loaded [1, 0]).busy = false ∧ 1 ≤ 2 ∧ cellsWritten (loaded [1, 0]).ibuf 2 := by decide
theorem witness_InvalidSchemeIdEntry : State.reset.busy = false := by decide
theorem witness_StartWhileBusyIsDropped :
    (inside 1 [1, 0] 0).busy = true ∧ (startEdge 7 4).fits (inside 1 [1, 0] 0).lenw = true := by decide
theorem witness_MalformedInputIsRefused_empty : (loaded []).busy = false := by decide
theorem witness_MalformedInputIsRefused_unwritten :
    (loaded [1]).busy = false ∧ 1 < 2 ∧ (loaded [1]).ibuf.read 1 = none := by decide
theorem witness_MalformedInputIsRefused_busy :
    let e : Edge := { ibufWrite := some ⟨254, 1⟩ }
    let s := withEdge e (inside 1 [1, 0] 0)
    s.busy = true ∧ s.edges = e :: [] ∧ e.fits s.lenw = true ∧ e.rst = false ∧
      e.ibufWrite = some ⟨254, 1⟩ ∧ 254 < s.maxLen := by decide
theorem witness_UnipolarStep :
    (inside 0 [1, 0] 0).inFrame 0 ∧ (inside 0 [1, 0] 0).atSymbol .mark ∧
    (inside 0 [1, 0] 1).inFrame 0 ∧ (inside 0 [1, 0] 1).atSymbol .space := by decide
theorem witness_NrzLStep :
    (inside 1 [1, 0] 0).inFrame 1 ∧ (inside 1 [1, 0] 0).atSymbol .mark ∧
    (inside 1 [1, 0] 1).inFrame 1 ∧ (inside 1 [1, 0] 1).atSymbol .space := by decide
theorem witness_NrzIStep :
    (inside 2 [1, 0] 0).inFrame 2 ∧ (inside 2 [1, 0] 0).atSymbol .mark ∧
    (inside 2 [1, 0] 1).inFrame 2 ∧ (inside 2 [1, 0] 1).atSymbol .space := by decide
theorem witness_ManchesterStep :
    (inside 3 [1, 0] 0).inFrame 3 ∧ (inside 3 [1, 0] 0).atSymbol .mark ∧
    (inside 3 [1, 0] 1).inFrame 3 ∧ (inside 3 [1, 0] 1).atSymbol .space := by decide
/-- The block that ends exactly at `LEN`. -/
theorem witness_B8zsSubstitution :
    let s := inside 4 [1, 0, 0, 0, 0, 0, 0, 0, 0] 1
    s.inFrame 4 ∧ s.pos + 8 = s.len ∧ s.edges = [] ∧ s.zeroRunAhead := by decide
/-- With the window read (`POS + 8 = LEN`), and with no window (one symbol further). -/
theorem witness_B8zsMarkStep :
    let s := inside 4 [1, 1, 0, 0, 0, 0, 0, 0] 0
    let s' := inside 4 [1, 1, 0, 0, 0, 0, 0, 0] 1
    (s.inFrame 4 ∧ s.atSymbol .mark ∧ s.windowWritten ∧ s.pos + 8 = s.len) ∧
    (s'.inFrame 4 ∧ s'.atSymbol .mark ∧ s'.windowWritten ∧ s'.len < s'.pos + 8) := by decide
/-- A zero with a mark as the last symbol of its window, and a zero of the last seven symbols. -/
theorem witness_B8zsZeroStep :
    let s := inside 4 [0, 0, 0, 0, 0, 0, 0, 1] 0
    let s' := inside 4 [1, 0, 0, 0, 0, 0, 0, 0] 1
    (s.inFrame 4 ∧ s.atSymbol .space ∧ s.windowWritten ∧ ¬s.zeroRunAhead) ∧
    (s'.inFrame 4 ∧ s'.atSymbol .space ∧ s'.windowWritten ∧ ¬s'.zeroRunAhead) := by decide
theorem witness_Hdb3MarkStep :
    (inside 5 [1] 0).inFrame 5 ∧ (inside 5 [1] 0).atSymbol .mark := by decide
theorem witness_Hdb3ZeroStep :
    let s := { inside 5 [0, 0, 0] 2 with zcnt := 2 }
    s.inFrame 5 ∧ s.zcnt.toNat + 1 < 4 ∧ s.atSymbol .space := by decide
/-- The tie `BAL = 0`, at the least `POS`. -/
theorem witness_Hdb3Substitution000V :
    let s := { inside 5 [0, 0, 0, 0] 3 with zcnt := 3 }
    s.inFrame 5 ∧ s.zcnt = 3 ∧ 0 ≤ s.bal ∧ 3 ≤ s.pos ∧ s.atSymbol .space := by decide
theorem witness_Hdb3SubstitutionB00V :
    let s := { inside 5 [0, 0, 0, 0, 0, 0, 0, 0] 7 with zcnt := 3, bal := -1, pol := .minus }
    s.inFrame 5 ∧ s.zcnt = 3 ∧ s.bal < 0 ∧ 3 ≤ s.pos ∧ s.atSymbol .space := by decide
/-- Another unit is selected; and the unit is selected but the encoder is idle. -/
theorem witness_UnselectedUnitIsDiscarded :
    unitOf .hdb3Mark = some 5 ∧
    ¬((inside 4 [1] 0).busy = true ∧ (inside 4 [1] 0).scheme = 5) ∧
    ¬((finished 5 [1]).busy = true ∧ (finished 5 [1]).scheme = 5) := by decide
theorem witness_SelectedStepBelongsToScheme :
    selectStep (inside 4 [0, 0, 0, 0, 0, 0, 0, 0] 0) = .ok .b8zsSubst := by decide
theorem witness_EveryKeySelectsAStep :
    (5 : BitVec 3).toNat < 6 ∧ (0b111 : BitVec 9).toNat < 2 ^ keyWidth 5 ∧
    (0b0_0111_1111 : BitVec 9).getLsbD 8 = false ∧ (0b0_0000_0000 : BitVec 9).getLsbD 8 = false ∧
    (0b0_0111_1111 : BitVec 9).getLsbD 7 = (0b0_0000_0000 : BitVec 9).getLsbD 7 := by decide
/-- The first position with only seven symbols left, and the last symbol. -/
theorem witness_B8zsTailIsPlain :
    let s := inside 4 [0, 0, 0, 0, 0, 0, 0, 0] 1
    let s' := inside 4 [0, 0, 0, 0, 0, 0, 0, 1] 7
    (s.scheme = 4 ∧ s.pos < s.len ∧ s.len + 1 = s.pos + 8 ∧ s.ibuf.read s.pos = some .space) ∧
    (s'.scheme = 4 ∧ s'.pos < s'.len ∧ s'.len < s'.pos + 8 ∧ s'.ibuf.read s'.pos = some .mark) := by decide
theorem witness_StepExecutesFetchedInstruction_step :
    let s := inside 1 [1, 0] 0
    s.edges = [] ∧ s.busy = true ∧ selectStep s = .ok .nrzLMark := by decide
/-- A write, a read and a START on one edge. -/
theorem witness_StepExecutesFetchedInstruction_start :
    let e : Edge := { startEdge 2 1 with ibufWrite := some ⟨0, 1⟩ }
    let s := withEdge e (State.resetOf 8)
    let u := loaded [1]
    s.edges = e :: [] ∧ e.fits s.lenw = true ∧ e.rst = false ∧ e.cmd = some ⟨2, 1⟩ ∧
    edgeWrite e (edgeRead e { s with edges := [] }) = .ok u ∧ ¬(u.busy = true ∧ e.stepEnds = true) ∧
    decode u.lenw (commandWord 2 1) = .ok (.nrzI 1) := by decide
theorem witness_StepExecutesFetchedInstruction_edge :
    let e : Edge := { startEdge 2 1 with stepEnds := true }
    let s := withEdge e (inside 1 [1, 0] 0)
    let u := inside 1 [1, 0] 0
    s.edges = e :: [] ∧ e.fits s.lenw = true ∧ e.rst = false ∧
    edgeWrite e (edgeRead e { s with edges := [] }) = .ok u ∧ u.busy = true ∧ e.stepEnds = true ∧
    selectStep u = .ok .nrzLMark := by decide
theorem witness_QuietEdgeChangesNothing : State.reset.edges = [] ∧ State.reset.busy = false := by decide
theorem witness_DecodeOfEncode :
    (Instr.hdb3 255).wf 8 = true ∧ (Instr.illegal7 0).wf 1 = true ∧ Instr.b8zsZero.wf 1 = true := by decide
theorem witness_CommandWordsAreStarts : 2047 < 2 ^ (8 + 3) ∧ 2 ^ (8 + 3) ≤ 2048 := by decide
theorem witness_ResetRegisters : State.reset ∈ [State.resetOf 1, State.reset] := by decide
theorem witness_ResetEdgeWins :
    let e : Edge := { startEdge 1 1 with rst := true, ibufWrite := some ⟨0, 1⟩ }
    let s := withEdge e (inside 1 [1, 0] 1)
    s.edges = e :: [] ∧ e.fits s.lenw = true ∧ e.rst = true := by decide
/-- Both clauses, at the highest cell. -/
theorem witness_HostWriteOfIbuf :
    let e : Edge := { startEdge 1 1 with ibufWrite := some ⟨254, 1⟩ }
    let s := withEdge e (loaded [1])
    let s' := withEdge e (inside 1 [1] 0)
    (s.edges = e :: [] ∧ e.fits s.lenw = true ∧ e.rst = false ∧ e.obufAddr = none ∧
      e.ibufWrite = some ⟨254, 1⟩ ∧ 254 + 1 = s.maxLen ∧ s.busy = false ∧ e.cmd = some ⟨1, 1⟩) ∧
    (s'.edges = e :: [] ∧ e.fits s'.lenw = true ∧ s'.busy = true) := by decide
theorem witness_HostWriteAtMaxlenIsIgnored : 1 ≤ (State.resetOf 1).lenw := by decide
/-- The last sample of a frame. -/
theorem witness_HostReadOfValidSample :
    (finished 1 [1, 0]).Inv ∧ (finished 1 [1, 0]).done = true ∧ 3 < 2 * (finished 1 [1, 0]).len :=
  ⟨⟨by decide, by decide, by decide, by decide, by decide, by decide, by decide⟩, by decide⟩
/-- No frame is done, and the first cell beyond a frame, up to the highest value of `obuf_addr`. -/
theorem witness_HostReadOfAnyValue :
    (0 < 2 ^ ((State.resetOf 8).lenw + 1) ∧ (State.resetOf 8).done = false) ∧
    (4 < 2 ^ ((finished 1 [1, 0]).lenw + 1) ∧ 2 * (finished 1 [1, 0]).len ≤ 4) ∧
    (511 < 2 ^ ((finished 1 [1, 0]).lenw + 1) ∧ 2 * (finished 1 [1, 0]).len ≤ 511) := by decide
theorem witness_InvariantHoldsAtReset : 1 ≤ 1 := by decide
/-- A running HDB3 frame at the substitution B00V, in the middle of the trace of V-HDB3-7. -/
theorem witness_InvariantKeptByEveryStep :
    let s := { inside 5 [0, 0, 0, 0, 0, 0, 0, 0] 7 with zcnt := 3, bal := -1, pol := .minus }
    s.Inv ∧ nextWith (step s) (fun t => t.done) = true :=
  ⟨⟨by decide, by decide, by decide, by decide, by decide, by decide, by decide⟩, by decide⟩
theorem witness_NoFaultIsReachable : (inside 4 [0, 0, 0, 0, 0, 0, 0, 0] 0).Inv :=
  ⟨by decide, by decide, by decide, by decide, by decide, by decide, by decide⟩
/-- A START whose one symbol is written on the same edge; a busy encoder with a read and a dropped START. -/
theorem witness_DutifulHostIsNeverRefused :
    (withEdge { startEdge 2 1 with ibufWrite := some ⟨0, 1⟩ } (State.resetOf 8)).Inv ∧
    (withEdge { startEdge 2 1 with ibufWrite := some ⟨0, 1⟩ } (State.resetOf 8)).dutiesKept ∧
    (withEdge { startEdge 7 0 with obufAddr := some 511 } (inside 1 [1, 0] 0)).Inv ∧
    (withEdge { startEdge 7 0 with obufAddr := some 511 } (inside 1 [1, 0] 0)).dutiesKept := by
  refine ⟨⟨by decide, by decide, by decide, by decide, by decide, by decide, by decide⟩,
    ⟨by decide, fun _ => ⟨fun _ _ _ => rfl, ?_⟩⟩,
    ⟨by decide, by decide, by decide, by decide, by decide, by decide, by decide⟩,
    ⟨by decide, fun _ => ⟨fun _ h => (nomatch h), fun _ _ h => (nomatch h)⟩⟩⟩
  intro c hc _ _
  cases hc
  exact ⟨by decide, fun i hi => .inr ⟨_, rfl, by dsimp only at hi ⊢; omega⟩⟩
theorem witness_ScanPositionAdvances :
    let s := inside 4 [0, 0, 0, 0, 0, 0, 0, 0] 0
    s.Inv ∧ s.edges = [] ∧ s.busy = true :=
  ⟨⟨by decide, by decide, by decide, by decide, by decide, by decide, by decide⟩, by decide⟩
theorem witness_RunningFrameReachesDone :
    let s := inside 1 [1, 0, 1, 0, 1] 0
    s.Inv ∧ s.edges = [] ∧ s.busy = true ∧ s.scheme ≠ 4 :=
  ⟨⟨by decide, by decide, by decide, by decide, by decide, by decide, by decide⟩, by decide⟩
theorem witness_InstructionsKeepInputs :
    (∃ t, exec .nrzLMark (inside 1 [1, 0] 0) = .next t) ∧ unitOf .nrzLMark ≠ none := ⟨⟨_, rfl⟩, by decide⟩
theorem witness_FrameOperandsAreFixed :
    (inside 1 [1, 0] 0).busy = true ∧ (∀ e ∈ (inside 1 [1, 0] 0).edges.head?, e.rst = false) ∧
    ∃ t, step (inside 1 [1, 0] 0) = .next t := ⟨rfl, by decide, ⟨_, rfl⟩⟩
/-- DONE cleared by a START; ERR cleared by a valid START. -/
theorem witness_FlagsClearedOnlyByStartOrReset :
    nextWith (step (withEdge (startEdge 7 1) (finished 1 [1]))) (fun t => !t.done) = true ∧
    (finished 1 [1]).done = true ∧
    nextWith (step (withEdge (startEdge 1 1) ((loaded [1]).raiseInvalidSchemeId 7 1))) (fun t => !t.err) =
      true ∧ ((loaded [1]).raiseInvalidSchemeId 7 1).err = true := by decide
/-- HDB3 at `POS = 4`: bit-time 0 is just final; another scheme, with all cells behind `POS` final. -/
theorem witness_SamplesBehindScanAreFinal :
    let s := inside 5 [1, 1, 1, 1, 1] 4
    let s' := inside 1 [1, 1] 1
    (s.Inv ∧ s.busy = true ∧ (∀ e ∈ s.edges.head?, e.rst = false) ∧ 0 + 4 ≤ s.pos ∧
      nextWith (step s) (fun _ => true) = true) ∧
    (s'.Inv ∧ s'.busy = true ∧ s'.scheme ≠ 5 ∧ nextWith (step s') (fun _ => true) = true) :=
  ⟨⟨⟨by decide, by decide, by decide, by decide, by decide, by decide, by decide⟩, by decide⟩,
    ⟨⟨by decide, by decide, by decide, by decide, by decide, by decide, by decide⟩, by decide⟩⟩
theorem witness_StepConsumesOneEdge : ∃ t, step State.reset = .next t := ⟨_, rfl⟩
/-- From the lowest balance, `(POL, BAL) = (+1, -2)`. -/
theorem witness_Hdb3BalanceRange :
    let s := { inside 5 [0, 0, 0, 0, 1, 0, 0, 0, 0, 1] 8 with zcnt := 3, bal := -2 }
    s.inFrame 5 ∧ s.bal.natAbs ≤ s.pos ∧ balanceOk s.pol s.bal ∧ selectStep s = .ok .hdb3SubstB00V ∧
      nextWith (exec .hdb3SubstB00V s) (fun _ => true) = true := by decide
theorem witness_MemorylessFrames :
    (withEdge (startEdge 0 3) (loaded [1, 0, 1])).readyFor 0 (bits [1, 0, 1]) ∧
    (withEdge (startEdge 1 3) (loaded [1, 0, 1])).readyFor 1 (bits [1, 0, 1]) ∧
    (withEdge (startEdge 3 3) (loaded [1, 0, 1])).readyFor 3 (bits [1, 0, 1]) := by decide
theorem witness_NrzIFrame :
    (withEdge (startEdge 2 1) (loaded [1])).readyFor 2 (bits [1]) := by decide
theorem witness_ManchesterTransitions :
    (withEdge (startEdge 3 2) (loaded [1, 0])).readyFor 3 (bits [1, 0]) := by decide
theorem witness_B8zsFrame :
    (withEdge (startEdge 4 9) (loaded [1, 0, 0, 0, 0, 0, 0, 0, 0])).readyFor 4
      (bits [1, 0, 0, 0, 0, 0, 0, 0, 0]) := by decide
theorem witness_B8zsStepCount :
    (withEdge (startEdge 4 8) (loaded [0, 0, 0, 0, 0, 0, 0, 0])).readyFor 4
      (bits [0, 0, 0, 0, 0, 0, 0, 0]) := by decide
theorem witness_Hdb3Frame :
    (withEdge (startEdge 5 5) (loaded [1, 0, 0, 0, 0])).readyFor 5 (bits [1, 0, 0, 0, 0]) := by decide
/-- Fresh from reset, and after another frame that left other registers and samples behind. -/
theorem witness_FrameOutputIsPure :
    (2 : BitVec 3).toNat < 6 ∧ (withEdge (startEdge 2 1) (loaded [1])).readyFor 2 (bits [1]) ∧
    (withEdge (startEdge 2 1) { finished 5 [1, 0] with pol := .minus, bal := 1 }).readyFor 2 (bits [1]) := by
  decide
/-- A finished frame with an IBUF write, a START, and an error entry on the edge; and an edge without a START. -/
theorem witness_IdleBlockKeepsSamples :
    let s := withEdge { startEdge 1 1 with ibufWrite := some ⟨0, 0⟩ } (finished 1 [1])
    let s' := withEdge (startEdge 7 0) (finished 1 [1])
    let s'' := withEdge { ibufWrite := some ⟨0, 0⟩, obufAddr := some 1 } (finished 1 [1])
    (s.busy = false ∧ (∀ e ∈ s.edges.head?, e.rst = false) ∧ nextWith (step s) (fun t => t.busy) = true) ∧
    (s'.busy = false ∧ (∀ e ∈ s'.edges.head?, e.rst = false) ∧ nextWith (step s') (fun t => t.err) = true) ∧
    (s''.busy = false ∧ (∀ e ∈ s''.edges.head?, e.rst = false) ∧ (∀ e ∈ s''.edges.head?, e.cmd = none) ∧
      nextWith (step s'') (fun t => t.done) = true) := by decide
/-- One witness for each clause that has a hypothesis: NRZ-I (R87's "1010"), an invalid scheme with no
symbols, an empty bit string, and MANCHESTER. -/
theorem witness_EncodeIsTheFrame :
    ((withEdge (startEdge 2 4) (loaded [1, 0, 1, 0])).readyFor 2 (bits [1, 0, 1, 0]) ∧
      encodeReference 2 (bits [1, 0, 1, 0]) =
        .samples [.minus, .minus, .minus, .minus, .plus, .plus, .plus, .plus]) ∧
    ((loaded []).busy = false ∧ (bits []).length < 2 ^ (loaded []).lenw ∧
      (withEdge (startEdge 6 0) (loaded [])).edges = [startEdge 6 (bits []).length] ∧
      encodeReference 6 (bits []) = .invalidSchemeId) ∧
    ((withEdge (startEdge 5 0) (loaded [])).edges = [startEdge 5 (bits []).length] ∧
      encodeReference 5 (bits []) = .refused .emptyFrame) ∧
    (encodeReference 3 (bits [1]) = .samples [.plus, .minus] ∧
      encodeReference 3 (bits [0]) = .samples [.minus, .plus]) := by decide

end Sys2Proof.Tests
end

section
/-! Every instruction is a START or the step of one scheme unit. The step rows' outputs stand apart
from the mux here, so that what a step computes and what the mux does with it can be said once each. -/

namespace Sys2Proof.Machine

/-- What the unit of a step row hands to the mux (40_mux_and_common.md R72); `none` for a START row.
`exec_cases` ties it to the rows' meanings. -/
def stepOutput (i : Instr) (s : State) : Option UnitOutput :=
  match i with
  | .unipolar _ | .nrzL _ | .nrzI _ | .manchester _ | .b8zs _ | .hdb3 _ | .illegal6 _ | .illegal7 _ =>
    none
  | .unipolarMark => some (s.plainOutput (emitHeld s.pos .plus))
  | .unipolarZero => some (s.plainOutput (emitHeld s.pos .zero))
  | .nrzLMark => some (s.plainOutput (emitHeld s.pos .minus))
  | .nrzLZero => some (s.plainOutput (emitHeld s.pos .plus))
  | .nrzIMark => some { s.plainOutput (emitHeld s.pos s.pol.flip.level) with pol := s.pol.flip }
  | .nrzIZero => some (s.plainOutput (emitHeld s.pos s.pol.level))
  | .manchesterMark => some (s.plainOutput (emitPair s.pos .plus .minus))
  | .manchesterZero => some (s.plainOutput (emitPair s.pos .minus .plus))
  | .b8zsSubst =>
    some { s.plainOutput (emitBlock s.pos (b8zsPattern s.pol)) with pol := s.pol.flip, stride := 8 }
  | .b8zsMark => some { s.plainOutput (emitHeld s.pos s.pol.level) with pol := s.pol.flip }
  | .b8zsZero => some (s.plainOutput (emitHeld s.pos .zero))
  | .hdb3Mark =>
    some { s.plainOutput (emitHeld s.pos s.pol.level) with
      bal := s.bal + s.pol.toInt, pol := s.pol.flip, zcnt := 0 }
  | .hdb3Zero => some { s.plainOutput (emitHeld s.pos .zero) with zcnt := s.zcnt + 1 }
  | .hdb3Subst000V =>
    some { s.plainOutput (emitBlock (s.pos - 3) [.zero, .zero, .zero, s.pol.flip.level]) with
      bal := s.bal - s.pol.toInt, pol := s.pol.flip, zcnt := 0 }
  | .hdb3SubstB00V =>
    let v := b00vPulse s.bal
    some { s.plainOutput (emitBlock (s.pos - 3) [v.level, .zero, .zero, v.level]) with
      bal := s.bal + v.toInt - v.toInt, pol := v.flip, zcnt := 0 }

/-- Every instruction is `start` with some operands, or hands its output to the mux as its unit. -/
theorem exec_cases (i : Instr) (s : State) :
    (unitOf i = none ∧ ∃ c n, exec i s = start c n s) ∨
      ∃ unit u, unitOf i = some unit ∧ stepOutput i s = some u ∧ exec i s = mux unit u s := by
  cases i with
  | unipolar n | nrzL n | nrzI n | manchester n | b8zs n | hdb3 n | illegal6 n | illegal7 n =>
    exact .inl ⟨rfl, _, n, rfl⟩
  | unipolarMark | unipolarZero | nrzLMark | nrzLZero | nrzIMark | nrzIZero | manchesterMark
  | manchesterZero | b8zsSubst | b8zsMark | b8zsZero | hdb3Mark | hdb3Zero | hdb3Subst000V
  | hdb3SubstB00V => exact .inr ⟨_, _, rfl, rfl, rfl⟩

/-- A step row hands its output to the mux as the unit it belongs to. -/
theorem exec_of_unitOf {i : Instr} {unit : BitVec 3} (h : unitOf i = some unit) (s : State) :
    ∃ u, stepOutput i s = some u ∧ exec i s = mux unit u s := by
  rcases exec_cases i s with ⟨hnone, -⟩ | ⟨unit', u, hunit, hu, hexec⟩
  · simp [hnone] at h
  · obtain rfl : unit' = unit := Option.some.inj (hunit.symm.trans h)
    exact ⟨u, hu, hexec⟩

/-- A unit reads nothing but the working registers (10_state.md R10). -/
theorem stepOutput_congr (i : Instr) {s s' : State} (hpos : s.pos = s'.pos) (hpol : s.pol = s'.pol)
    (hzcnt : s.zcnt = s'.zcnt) (hbal : s.bal = s'.bal) : stepOutput i s = stepOutput i s' := by
  cases i <;> simp only [stepOutput, State.plainOutput, hpos, hpol, hzcnt, hbal]

/-- No instruction touches the input ports, the width, the read port or IBUF (20_memory.md R30). -/
theorem exec_sameOutside {i : Instr} {s t : State} (h : exec i s = .next t) : s.sameOutside t := by
  rcases exec_cases i s with ⟨-, c, n, hexec⟩ | ⟨unit, u, -, -, hexec⟩
  · rw [hexec] at h
    rcases start_next h with ⟨-, rfl⟩ | ⟨-, -, rfl⟩ | ⟨-, -, -, -, rfl⟩ <;>
      exact ⟨rfl, rfl, rfl, rfl, rfl⟩
  · rw [hexec] at h
    rcases mux_next h with ⟨-, -, hcommit⟩ | ⟨-, rfl⟩
    · obtain ⟨rfl, -⟩ := commit_next hcommit
      exact ⟨rfl, rfl, rfl, rfl, rfl⟩
    · exact ⟨rfl, rfl, rfl, rfl, rfl⟩

end Sys2Proof.Machine
end

section
/-! What a fetch does to the pending edges and the width, the model's own fields (log entries 1, 2). -/

namespace Sys2Proof.Machine

/-- The state that a fetch leaves: the next one, or the one in which the fetched instruction runs. -/
def Fetched.state : Fetched → State
  | .idle s => s
  | .run _ s => s

/-- The encoder's turn selects a step in the state as it is. -/
theorem fetchStep_state {s : State} {f : Fetched} (h : fetchStep s = .ok f) : f.state = s := by
  unfold fetchStep at h
  split at h
  · cases h
  · cases h; rfl

/-- The command ports select an instruction in the state as it is. -/
theorem fetchCommand_state {c : Option Command} {s : State} {f : Fetched}
    (h : fetchCommand c s = .ok f) : f.state = s := by
  rcases fetchCommand_ok h with ⟨-, rfl⟩ | ⟨d, i, -, -, rfl⟩ <;> rfl

/-- An edge leaves the later edges pending, and the width as it was. -/
theorem fetchEdge_state {e : Edge} {s : State} {f : Fetched} (h : fetchEdge e s = .ok f) :
    f.state.edges = s.edges ∧ f.state.lenw = s.lenw := by
  obtain ⟨d, n, hread⟩ := edgeRead_frame e s
  obtain ⟨-, ⟨-, rfl⟩ | ⟨-, t, hwrite, hrun⟩⟩ := fetchEdge_ok h
  · rw [hread]; exact ⟨rfl, rfl⟩
  · obtain ⟨m, rfl⟩ := edgeWrite_frame hwrite
    have hstate : f.state = { edgeRead e s with ibuf := m } := by
      rcases hrun with ⟨-, -, hstep⟩ | ⟨-, hcmd⟩
      · exact fetchStep_state hstep
      · exact fetchCommand_state hcmd
    rw [hstate, hread]; exact ⟨rfl, rfl⟩

/-- A fetch takes the oldest pending edge, if there is one. -/
theorem fetch_state {s : State} {f : Fetched} (h : fetch s = .ok f) :
    f.state.edges = s.edges.tail ∧ f.state.lenw = s.lenw := by
  unfold fetch at h
  split at h
  · next hnil =>
    have hstate : f.state = s := by
      split at h
      · exact fetchStep_state h
      · cases h; rfl
    simp [hstate, hnil]
  · next e rest hcons => simpa [hcons] using fetchEdge_state h

/-- Settles O43: the fetch takes the edge, and the instruction it runs keeps the ports and the width. -/
theorem stepConsumesOneEdge : Obligations.StepConsumesOneEdge := by
  intro s t h
  rcases step_next h with hidle | ⟨i, r, hrun, hexec⟩
  · exact fetch_state hidle
  · obtain ⟨hedges, hlenw⟩ : r.edges = s.edges.tail ∧ r.lenw = s.lenw := fetch_state hrun
    obtain ⟨hlenw', hedges', -⟩ := exec_sameOutside hexec
    exact ⟨hedges'.trans hedges, hlenw'.trans hlenw⟩

end Sys2Proof.Machine
end

section
/-! Step selection inside a frame: it never fails there, what it selects has room for its block, and it
reads nothing but symbols, `SCHEME`, `LEN`, `POS`, `ZCNT` and `BAL` (30_encoding.md R57 to R59). -/

namespace Sys2Proof.Machine

/-- A selected step belongs to the unit that `SCHEME` names (40_mux_and_common.md R72). -/
theorem unitOf_of_selectStep {s : State} {i : Instr} (h : selectStep s = .ok i) :
    unitOf i = some s.scheme := by
  rcases selectStep_cases h with
    ⟨b, -, ⟨hs, rfl⟩ | ⟨hs, rfl⟩ | ⟨hs, rfl⟩ | ⟨hs, rfl⟩ | ⟨hs, rfl⟩⟩ |
      ⟨hs, -, w, -, rfl⟩ | ⟨hs, -, b, -, rfl⟩ <;> rw [hs]
  · cases b <;> rfl
  · cases b <;> rfl
  · cases b <;> rfl
  · cases b <;> rfl
  · cases b with
    | mark => rfl
    | space => dsimp only; split_ifs <;> rfl
  · split_ifs
    · rfl
    · cases w.getD 0 .space <;> rfl
  · cases b <;> rfl

/-- A B8ZS substitution is selected only where its eight symbols stand before `LEN` (43_b8zs.md R101). -/
theorem room_of_selectStep_b8zsSubst {s : State} (h : selectStep s = .ok .b8zsSubst) :
    s.pos + 8 ≤ s.len := by
  have hs : s.scheme = 4 := (Option.some.inj (unitOf_of_selectStep h)).symm
  rcases selectStep_cases h with ⟨b, -, hrow⟩ | ⟨-, hroom, -⟩ | ⟨-, -, b, -, hi⟩
  · simp [hs] at hrow
  · exact hroom
  · cases b <;> cases hi

/-- An HDB3 substitution is selected only after three counted zeros (44_hdb3.md R110). -/
theorem zcnt_of_selectStep_hdb3Subst {s : State} {i : Instr} (h : selectStep s = .ok i)
    (hi : i = .hdb3Subst000V ∨ i = .hdb3SubstB00V) : s.zcnt = 3 := by
  have hs : s.scheme = 5 := by
    have hunit := unitOf_of_selectStep h
    rcases hi with rfl | rfl <;> exact (Option.some.inj hunit).symm
  rcases selectStep_cases h with ⟨b, hread, -⟩ | ⟨hs', -⟩ | ⟨hs', -⟩
  · obtain ⟨hp, hb⟩ := readSymbol_eq_ok.1 hread
    have hrow : i = hdb3StepOf b s.zcnt s.bal :=
      Except.ok.inj (h.symm.trans (selectStep_hdb3 hs hp hb))
    by_contra hz
    cases b with
    | mark => simp [hrow, hdb3StepOf] at hi
    | space => rw [hrow, hdb3StepOf, if_neg hz] at hi; simp at hi
  · simp [hs] at hs'
  · simp [hs] at hs'

/-- The B8ZS key can be formed in a frame whose symbols are written (30_encoding.md R57). -/
theorem exists_b8zsKey {s : State} (hw : cellsWritten s.ibuf s.len) (hp : s.pos < s.len) :
    ∃ key, b8zsKey s = .ok key := by
  unfold b8zsKey
  split
  · next hfit =>
    obtain ⟨w, hread⟩ := memRead_of_written hw (by simpa [windowFits] using hfit : s.pos + 8 ≤ s.len)
    exact ⟨_, by rw [hread]⟩
  · obtain ⟨b, hread⟩ := readSymbol_of_written hw hp
    exact ⟨_, by rw [hread]⟩

/-- A row of the scheme that matches the key is the selected step (30_encoding.md R59). -/
theorem selectStep_of_key {s : State} {key : BitVec 9} {i : Instr} (hkey : stepKey s = .ok key)
    (hi : decodeStep s.scheme key = .ok i) : selectStep s = .ok i := by
  simp only [selectStep, hkey, hi]

/-- The six scheme codes (30_encoding.md R51). -/
theorem scheme_cases {scheme : BitVec 3} (hv : scheme.toNat < 6) :
    scheme = 0 ∨ scheme = 1 ∨ scheme = 2 ∨ scheme = 3 ∨ scheme = 4 ∨ scheme = 5 := by
  revert scheme; decide

/-- Inside a frame of a valid scheme some step is always selected (40_mux_and_common.md R83). -/
theorem exists_selectStep {s : State} (hv : s.scheme.toNat < 6) (hw : cellsWritten s.ibuf s.len)
    (hp : s.pos < s.len) : ∃ i, selectStep s = .ok i := by
  obtain ⟨b, hb⟩ := Option.isSome_iff_exists.1 (hw s.pos hp)
  have hsym := symbolKey_of_read hp hb
  obtain ⟨h0, h1, h2, h3⟩ := decodeStep_symbol b
  have one {i : Instr} (hkey : stepKey s = symbolKey s)
      (hi : decodeStep s.scheme (BitVec.ofNat 9 b.code.toNat) = .ok i) : ∃ i, selectStep s = .ok i :=
    ⟨i, selectStep_of_key (hkey.trans hsym) hi⟩
  rcases scheme_cases hv with hs | hs | hs | hs | hs | hs
  · exact one (by simp [stepKey, hs]) (by rw [hs]; exact h0)
  · exact one (by simp [stepKey, hs]) (by rw [hs]; exact h1)
  · exact one (by simp [stepKey, hs]) (by rw [hs]; exact h2)
  · exact one (by simp [stepKey, hs]) (by rw [hs]; exact h3)
  · obtain ⟨key, hkey⟩ := exists_b8zsKey hw hp
    have hkey : stepKey s = .ok key := by simp [stepKey, hs, hkey]
    exact ⟨_, selectStep_of_key hkey (by rw [hs]; exact decodeStep_b8zs key)⟩
  · exact ⟨_, selectStep_hdb3 hs hp hb⟩

/-- Windows of symbols that read alike are alike. -/
theorem memRead_congr {s s' : State} (hread : ∀ i, readSymbol s i = readSymbol s' i) (i m : Nat) :
    memRead s i m = memRead s' i m := by
  induction m generalizing i with
  | zero => rfl
  | succ m ih => simp only [memRead, hread, ih]

/-- Step selection reads nothing but the symbols and five registers. -/
theorem selectStep_congr {s s' : State} (hread : ∀ i, readSymbol s i = readSymbol s' i)
    (hscheme : s.scheme = s'.scheme) (hlen : s.len = s'.len) (hpos : s.pos = s'.pos)
    (hzcnt : s.zcnt = s'.zcnt) (hbal : s.bal = s'.bal) : selectStep s = selectStep s' := by
  have hsym : symbolKey s = symbolKey s' := by simp only [symbolKey, hread, hpos]
  have hb8zs : b8zsKey s = b8zsKey s' := by
    have hfits : windowFits s = windowFits s' := by simp only [windowFits, hpos, hlen]
    simp only [b8zsKey, hfits, hread, memRead_congr hread, hpos]
  have hhdb3 : hdb3Key s = hdb3Key s' := by simp only [hdb3Key, hread, hpos, hzcnt, hbal]
  simp only [selectStep, stepKey, hscheme, hsym, hb8zs, hhdb3]

end Sys2Proof.Machine
end

section
/-! One frame: the step machine inside a frame of the bit string `bits` with silent ports, and what each
of its steps does to the frame. -/

namespace Sys2Proof.Machine

/-- The machine is inside a frame of `bits`, and the host drives nothing. The samples of the bit-times
behind the scan position are written (40_mux_and_common.md R81), and the counted zeros stand behind
it (44_hdb3.md R120). -/
structure State.RunsFrame (s : State) (bits : List Sym) : Prop where
  silent : s.edges = []
  busy : s.busy = true
  done : s.done = false
  err : s.err = false
  valid : s.scheme.toNat < 6
  len : s.len = bits.length
  symbols : holdsSymbols s.ibuf bits
  pos_lt : s.pos < s.len
  zcnt_le : s.zcnt.toNat ≤ s.pos
  samples : cellsWritten s.obuf (2 * s.pos)

/-- The output of a unit goes on from the scan position of `s`: its block starts no later than the
samples of that position, ends with those of the next one, and stays inside the frame (R76, R81). -/
structure UnitOutput.Advances (u : UnitOutput) (s : State) : Prop where
  cell_nonneg : 0 ≤ u.write.cell
  cell_le : u.write.cell ≤ 2 * s.pos
  reaches : u.write.cell + u.write.levels.length = 2 * (s.pos + u.stride)
  stride_pos : 1 ≤ u.stride
  inside : s.pos + u.stride ≤ s.len
  zcnt_le : u.zcnt.toNat ≤ s.pos + u.stride

section
variable {s t : State} {bits : List Sym} {u : UnitOutput}

/-- Samples for the next `stride` symbols, from the scan position on, advance the frame. -/
theorem UnitOutput.Advances.of_ahead (hroom : s.pos + u.stride ≤ s.len)
    (hz : u.zcnt.toNat ≤ s.pos + u.stride) (hcell : u.write.cell = 2 * s.pos)
    (hlength : u.write.levels.length = 2 * u.stride) (hstride : 1 ≤ u.stride) : u.Advances s where
  cell_nonneg := by omega
  cell_le := by omega
  reaches := by omega
  stride_pos := by omega
  inside := by omega
  zcnt_le := by omega

/-- An HDB3 block over the last four bit-times advances the frame by one symbol (44_hdb3.md R113). -/
theorem UnitOutput.Advances.of_hdb3Block (hp : s.pos < s.len) (hbehind : 3 ≤ s.pos) (hz : u.zcnt = 0)
    (hcell : u.write.cell = 2 * ((s.pos : Int) - 3)) (hlength : u.write.levels.length = 8)
    (hstride : u.stride = 1) : u.Advances s where
  cell_nonneg := by omega
  cell_le := by omega
  reaches := by omega
  stride_pos := by omega
  inside := by omega
  zcnt_le := by simp [hz]

/-- The output of a selected step advances the frame. -/
theorem State.RunsFrame.advances (h : s.RunsFrame bits) {i : Instr} (hi : selectStep s = .ok i)
    (hu : stepOutput i s = some u) : u.Advances s := by
  have hp := h.pos_lt
  have hz := h.zcnt_le
  cases i with
  | unipolar _ | nrzL _ | nrzI _ | manchester _ | b8zs _ | hdb3 _ | illegal6 _ | illegal7 _ => cases hu
  | unipolarMark | unipolarZero | nrzLMark | nrzLZero | nrzIMark | nrzIZero | manchesterMark
  | manchesterZero | b8zsMark | b8zsZero =>
    cases hu
    exact .of_ahead hp (Nat.le_add_right_of_le hz) rfl rfl le_rfl
  | b8zsSubst =>
    have hroom := room_of_selectStep_b8zsSubst hi
    cases hu
    exact .of_ahead hroom (Nat.le_add_right_of_le hz) rfl rfl (Nat.succ_pos 7)
  | hdb3Mark =>
    cases hu
    exact .of_ahead hp (Nat.zero_le _) rfl rfl le_rfl
  | hdb3Zero =>
    cases hu
    exact .of_ahead hp (by simp; omega) rfl rfl le_rfl
  | hdb3Subst000V =>
    have hzcnt := zcnt_of_selectStep_hdb3Subst hi (.inl rfl)
    cases hu
    exact .of_hdb3Block hp (by simpa [hzcnt] using hz) rfl rfl rfl rfl
  | hdb3SubstB00V =>
    have hzcnt := zcnt_of_selectStep_hdb3Subst hi (.inr rfl)
    cases hu
    exact .of_hdb3Block hp (by simpa [hzcnt] using hz) rfl rfl rfl rfl

/-- A read of OBUF behind the new scan position: the block where it was written, else as before. -/
theorem UnitOutput.Advances.read_committed (hu : u.Advances s) {k : Nat}
    (hk : k < 2 * (s.pos + u.stride)) :
    (s.committed u).obuf.read k =
      if k < u.write.cell.toNat then s.obuf.read k else u.write.levels[k - u.write.cell.toNat]? := by
  have hnonneg := hu.cell_nonneg
  have hreaches := hu.reaches
  rw [State.committed_obuf, Memory.read_writeList]
  by_cases hlow : k < u.write.cell.toNat
  · rw [if_pos hlow, if_neg (by omega)]
  · rw [if_neg hlow, if_pos (by omega)]

/-- The samples behind the new scan position are written (40_mux_and_common.md R81). -/
theorem UnitOutput.Advances.cellsWritten_committed (hu : u.Advances s)
    (hw : cellsWritten s.obuf (2 * s.pos)) :
    cellsWritten (s.committed u).obuf (2 * (s.pos + u.stride)) := by
  intro k hk
  have hle := hu.cell_le
  have hreaches := hu.reaches
  rw [hu.read_committed hk]
  split
  · exact hw k (by omega)
  · simp; omega

/-- The IBUF of a frame is read symbol by symbol from `bits`. -/
theorem State.RunsFrame.readSymbol_eq (h : s.RunsFrame bits) (i : Nat) :
    readSymbol s i =
      if hi : i < bits.length then .ok bits[i] else .error (.fault .ibufOutOfRange) := by
  split
  · next hi =>
    exact readSymbol_eq_ok.2 ⟨h.len ▸ hi, by rw [h.symbols i hi, List.getElem?_eq_getElem hi]⟩
  · next hi => rw [readSymbol, if_neg (h.len ▸ hi)]

/-- A step inside a frame commits the output of the step that is selected. -/
theorem State.RunsFrame.step_eq (h : s.RunsFrame bits) :
    ∃ i u, selectStep s = .ok i ∧ stepOutput i s = some u ∧ u.Advances s ∧
      step s = .next (s.committed u) := by
  have hw : cellsWritten s.ibuf s.len := fun j hj => by
    have hj : j < bits.length := h.len ▸ hj
    simp [h.symbols j hj, hj]
  obtain ⟨i, hi⟩ := exists_selectStep h.valid hw h.pos_lt
  obtain ⟨u, hu, hexec⟩ := exec_of_unitOf (unitOf_of_selectStep hi) s
  have hadv := h.advances hi hu
  refine ⟨i, u, hi, hu, hadv, ?_⟩
  calc step s = mux s.scheme u s := (step_of_selected h.silent h.busy hi).trans hexec
    _ = commit u s := mux_selected u h.busy rfl
    _ = .next (s.committed u) := commit_of_inRange hadv.cell_nonneg (by
      have := hadv.reaches
      have := hadv.inside
      omega)

/-- A step that ends before `LEN` leaves the frame running. -/
theorem State.RunsFrame.committed (h : s.RunsFrame bits) (hu : u.Advances s)
    (hmore : s.pos + u.stride < s.len) : (s.committed u).RunsFrame bits where
  silent := h.silent
  busy := by simpa [busyAfter] using hmore.ne
  done := by simpa [doneAfter, h.done] using hmore.ne
  err := h.err
  valid := h.valid
  len := h.len
  symbols := h.symbols
  pos_lt := hmore
  zcnt_le := hu.zcnt_le
  samples := hu.cellsWritten_committed h.samples

/-- The step that reaches `LEN` ends the frame (40_mux_and_common.md R71). -/
theorem State.RunsFrame.runsToDone_last (h : s.RunsFrame bits) (hstep : step s = .next (s.committed u))
    (hend : s.pos + u.stride = s.len) : s.runsToDone 1 (s.committed u) bits.length :=
  runsToDone_one hstep ⟨by simp [doneAfter, hend], by simp [busyAfter, hend], h.err, h.len,
    hend.trans h.len⟩

/-- After DONE the host can read every cell of the frame (20_memory.md R41). -/
theorem sampleAt_of_runsToDone {k n j : Nat} (h : s.runsToDone k t n) (hj : j < 2 * n) :
    t.sampleAt j = t.obuf.read j := by
  obtain ⟨-, hdone, -, -, hlen, -⟩ := h
  simp [State.sampleAt, hdone, hlen, hj]

end

end Sys2Proof.Machine
end

section
/-! Two frames of the same bit string under the same scheme run in lockstep, whatever else their states
hold (00_scope.md R4). -/

namespace Sys2Proof.Machine

/-- Two states agree on the scheme, on the scan position, on the working registers, and on the samples
behind the scan position. -/
structure State.SameProgress (s s' : State) : Prop where
  scheme : s.scheme = s'.scheme
  pos : s.pos = s'.pos
  pol : s.pol = s'.pol
  zcnt : s.zcnt = s'.zcnt
  bal : s.bal = s'.bal
  samples : ∀ k < 2 * s.pos, s.obuf.read k = s'.obuf.read k

section
variable {s s' : State} {scheme : BitVec 3} {bits : List Sym} {u : UnitOutput}

/-- The same output, committed to both states, keeps them together. -/
theorem State.SameProgress.committed (hss : s.SameProgress s') (hu : u.Advances s)
    (hu' : u.Advances s') : (s.committed u).SameProgress (s'.committed u) where
  scheme := hss.scheme
  pos := congrArg (· + u.stride) hss.pos
  pol := rfl
  zcnt := rfl
  bal := rfl
  samples k hk := by
    have hle := hu.cell_le
    rw [hu.read_committed hk, hu'.read_committed (hss.pos ▸ hk)]
    split
    · exact hss.samples k (by omega)
    · rfl

/-- Two frames in lockstep step with the same output. -/
theorem State.SameProgress.step_eq (hss : s.SameProgress s') (h : s.RunsFrame bits)
    (h' : s'.RunsFrame bits) : ∃ u, u.Advances s ∧ u.Advances s' ∧
      step s = .next (s.committed u) ∧ step s' = .next (s'.committed u) := by
  obtain ⟨i, u, hi, hu, hadv, hstep⟩ := h.step_eq
  obtain ⟨i', u', hi', hu', hadv', hstep'⟩ := h'.step_eq
  have hselect : selectStep s = selectStep s' :=
    selectStep_congr (fun j => (h.readSymbol_eq j).trans (h'.readSymbol_eq j).symm) hss.scheme
      (h.len.trans h'.len.symm) hss.pos hss.zcnt hss.bal
  obtain rfl : i = i' := Except.ok.inj (hi.symm.trans (hselect.trans hi'))
  obtain rfl : u = u' := Option.some.inj
    (hu.symm.trans ((stepOutput_congr i hss.pos hss.pol hss.zcnt hss.bal).trans hu'))
  exact ⟨u, hadv, hadv', hstep, hstep'⟩

/-- Two frames in lockstep end together, with the same samples written. -/
theorem State.SameProgress.runsToDone (hss : s.SameProgress s') (h : s.RunsFrame bits)
    (h' : s'.RunsFrame bits) : ∃ k t t', s.runsToDone k t bits.length ∧
      s'.runsToDone k t' bits.length ∧
      ∀ j < 2 * bits.length, (t.obuf.read j).isSome = true ∧ t.obuf.read j = t'.obuf.read j := by
  induction hrest : s.len - s.pos using Nat.strong_induction_on generalizing s s' with
  | _ rest ih =>
    obtain ⟨u, hu, hu', hstep, hstep'⟩ := hss.step_eq h h'
    have hnext := hss.committed hu hu'
    have hlen : s.len = s'.len := h.len.trans h'.len.symm
    have hstride := hu.stride_pos
    have hp := h.pos_lt
    by_cases hmore : s.pos + u.stride < s.len
    · have hmore' : s'.pos + u.stride < s'.len := hss.pos ▸ hlen ▸ hmore
      have hr := h.committed hu hmore
      have hr' := h'.committed hu' hmore'
      obtain ⟨k, t, t', hk, hk', hsamples⟩ := ih _ (by simp; omega) hnext hr hr' rfl
      exact ⟨k + 1, t, t', runsToDone_succ hstep ⟨hr.busy, hr.done⟩ hk,
        runsToDone_succ hstep' ⟨hr'.busy, hr'.done⟩ hk', hsamples⟩
    · have hend : s.pos + u.stride = s.len := by have := hu.inside; omega
      have hend' : s'.pos + u.stride = s'.len := hss.pos ▸ hlen ▸ hend
      refine ⟨1, _, _, h.runsToDone_last hstep hend, h'.runsToDone_last hstep' hend', fun j hj => ?_⟩
      have hj : j < 2 * (s.pos + u.stride) := by rw [hend, h.len]; exact hj
      exact ⟨hu.cellsWritten_committed h.samples j hj, hnext.samples j hj⟩

/-- A START of a written frame under a valid scheme is accepted (40_mux_and_common.md R70). -/
theorem start_accepted {n : Nat} (hb : s.busy = false) (hv : scheme.toNat < 6) (hn : 1 ≤ n)
    (hw : cellsWritten s.ibuf n) : start scheme n s = .next (s.startFrame scheme n) := by
  have hvalid : validScheme scheme = true := by simpa [validScheme] using hv
  have hzero : n ≠ 0 := by omega
  simp only [start, hb, hvalid, hzero, frameWritten_iff.2 hw]
  rfl

/-- The state in which a START on silent ports begins its frame. -/
def State.begun (s : State) (scheme : BitVec 3) (bits : List Sym) : State :=
  { s with edges := [] }.startFrame scheme bits.length

/-- From an idle state that holds the bit string, the START is accepted (40_mux_and_common.md R70). -/
theorem step_of_readyFor (hv : scheme.toNat < 6) (h : s.readyFor scheme bits) :
    step s = .next (s.begun scheme bits) ∧ (s.begun scheme bits).RunsFrame bits := by
  obtain ⟨hb, hne, hfits, hsymbols, hedges⟩ := h
  have hpos : 0 < bits.length := List.length_pos_of_ne_nil hne
  have hw : cellsWritten s.ibuf bits.length := fun j hj => by simp [hsymbols j hj, hj]
  refine ⟨(step_startEdge hb hedges hfits).trans (start_accepted hb hv hpos hw), ?_⟩
  exact ⟨rfl, rfl, rfl, rfl, hv, rfl, hsymbols, hpos, Nat.zero_le _,
    fun k hk => absurd hk (Nat.not_lt_zero k)⟩

/-- Nothing of the states before two STARTs tells their frames apart. -/
theorem State.SameProgress.begun (s s' : State) (scheme : BitVec 3) (bits : List Sym) :
    (s.begun scheme bits).SameProgress (s'.begun scheme bits) :=
  ⟨rfl, rfl, rfl, rfl, rfl, fun k hk => absurd hk (Nat.not_lt_zero k)⟩

end

/-- Settles O51: after their STARTs the two frames run in lockstep, and end with the same samples. -/
theorem frameOutputIsPure : Obligations.FrameOutputIsPure := by
  intro s s' scheme bits hv hs hs'
  obtain ⟨hstep, hrun⟩ := step_of_readyFor hv hs
  obtain ⟨hstep', hrun'⟩ := step_of_readyFor hv hs'
  obtain ⟨k, t, t', hk, hk', hsamples⟩ :=
    (State.SameProgress.begun s s' scheme bits).runsToDone hrun hrun'
  refine ⟨k + 1, t, k + 1, t', runsToDone_succ hstep ⟨hrun.busy, hrun.done⟩ hk,
    runsToDone_succ hstep' ⟨hrun'.busy, hrun'.done⟩ hk', fun j hj => ?_⟩
  rw [sampleAt_of_runsToDone hk hj, sampleAt_of_runsToDone hk' hj]
  exact hsamples j hj

end Sys2Proof.Machine
end

section
/-! What a step of the machine can do, said once over the edge that it takes and the accesses of the
host on it; and which steps clear a flag. -/

namespace Sys2Proof.Machine

/-- `r` is `s` after the host's accesses at one edge, or at none: the pending edges and the read port
may have changed, and one IBUF cell where the encoder is idle (40_mux_and_common.md R78, R79). -/
def State.HostAccess (s r : State) : Prop :=
  ∃ edges m d n,
    (m = s.ibuf ∨ s.busy = false ∧ ∃ a v, a < s.maxLen ∧ m = s.ibuf.write a v) ∧
    r = { s with edges := edges, ibuf := m, obufRdata := d, anyCount := n }

section
variable {s r t : State} {e : Edge} {f : Fetched}

/-- A step with no edge pending makes no access. -/
theorem State.HostAccess.refl (s : State) : s.HostAccess s :=
  ⟨s.edges, s.ibuf, s.obufRdata, s.anyCount, .inl rfl, rfl⟩

/-- No access of the host changes a flag (20_memory.md R41). -/
theorem State.HostAccess.flags (h : s.HostAccess r) :
    r.busy = s.busy ∧ r.done = s.done ∧ r.err = s.err := by
  obtain ⟨edges, m, d, n, -, rfl⟩ := h
  exact ⟨rfl, rfl, rfl⟩

/-- No access of the host changes the width. -/
theorem State.HostAccess.lenw (h : s.HostAccess r) : r.lenw = s.lenw := by
  obtain ⟨edges, m, d, n, -, rfl⟩ := h
  rfl

/-- The read of an edge is an access of the host. -/
theorem hostAccess_edgeRead (e : Edge) (s : State) (rest : List Edge) :
    s.HostAccess (edgeRead e { s with edges := rest }) := by
  obtain ⟨d, n, hread⟩ := edgeRead_frame e { s with edges := rest }
  exact ⟨rest, s.ibuf, d, n, .inl rfl, hread⟩

/-- The read and the write of an edge are an access of the host. -/
theorem hostAccess_edgeWrite {rest : List Edge}
    (h : edgeWrite e (edgeRead e { s with edges := rest }) = .ok r) : s.HostAccess r := by
  obtain ⟨d, n, hread⟩ := edgeRead_frame e { s with edges := rest }
  rw [hread] at h
  unfold edgeWrite at h
  split at h
  · cases h
    exact ⟨rest, s.ibuf, d, n, .inl rfl, rfl⟩
  · next w _ =>
    rcases hostWriteIbuf_ok h with ⟨haddr, hb, rfl⟩ | ⟨-, rfl⟩
    · exact ⟨rest, _, d, n, .inr ⟨hb, w.addr, _, haddr, rfl⟩, rfl⟩
    · exact ⟨rest, s.ibuf, d, n, .inl rfl, rfl⟩

/-- The encoder's turn runs the selected step in the state as it is. -/
theorem fetchStep_ok (h : fetchStep s = .ok f) : ∃ i, selectStep s = .ok i ∧ f = .run i s := by
  unfold fetchStep at h
  split at h
  · cases h
  · next i hi => cases h; exact ⟨i, hi, rfl⟩

/-- The length on the command ports of an edge that fits is a length of the machine. -/
theorem len_lt_of_fits {lenw : Nat} {c : Command} (h : e.fits lenw = true) (hc : e.cmd = some c) :
    c.len < 2 ^ lenw := by
  simp only [Edge.fits, hc, Option.all_some, Bool.and_eq_true] at h
  exact of_decide_eq_true h.1.1

/-- Everything a fetch can find: a reset; or, after the accesses of the host, nothing, the selected step
of a running frame, or the START on the oldest edge. -/
theorem fetch_cases (h : fetch s = .ok f) :
    (∃ e ∈ s.edges.head?, e.rst = true ∧ ∃ r, s.HostAccess r ∧ f = .idle r.hardReset) ∨
      ∃ r, s.HostAccess r ∧
        (f = .idle r ∨
         (r.busy = true ∧ ∃ i, selectStep r = .ok i ∧ f = .run i r) ∨
         ∃ e ∈ s.edges.head?, ∃ c ∈ e.cmd, c.len < 2 ^ s.lenw ∧
           f = .run (startInstr c.scheme c.len) r) := by
  unfold fetch at h
  split at h
  · refine .inr ⟨s, .refl s, ?_⟩
    split at h
    · next hb => exact .inr (.inl ⟨hb, fetchStep_ok h⟩)
    · cases h; exact .inl rfl
  next e rest hedges =>
  have he : e ∈ s.edges.head? := by simp [hedges]
  obtain ⟨hfits, ⟨hrst, rfl⟩ | ⟨-, r, hwrite, hrun⟩⟩ := fetchEdge_ok h
  · exact .inl ⟨e, he, hrst, _, hostAccess_edgeRead e s rest, rfl⟩
  refine .inr ⟨r, hostAccess_edgeWrite hwrite, ?_⟩
  rcases hrun with ⟨hb, -, hstep⟩ | ⟨-, hcmd⟩
  · exact .inr (.inl ⟨hb, fetchStep_ok hstep⟩)
  rcases fetchCommand_ok hcmd with ⟨-, rfl⟩ | ⟨c, i, hc, hdecode, rfl⟩
  · exact .inl rfl
  have hlen := len_lt_of_fits hfits hc
  rw [(hostAccess_edgeWrite hwrite).lenw, decode_commandWord c.scheme hlen] at hdecode
  cases hdecode
  exact .inr (.inr ⟨e, he, c, hc, hlen, rfl⟩)

/-- Everything a step of the machine can do when it completes. -/
theorem step_cases (h : step s = .next t) :
    (∃ e ∈ s.edges.head?, e.rst = true ∧ ∃ r, s.HostAccess r ∧ t = r.hardReset) ∨
      ∃ r, s.HostAccess r ∧
        (t = r ∨
         (r.busy = true ∧ ∃ i, selectStep r = .ok i ∧ exec i r = .next t) ∨
         ∃ e ∈ s.edges.head?, ∃ c ∈ e.cmd, c.len < 2 ^ s.lenw ∧
           start c.scheme c.len r = .next t) := by
  rcases step_next h with hidle | ⟨i, r, hrun, hexec⟩
  · rcases fetch_cases hidle with
      ⟨e, he, hrst, r, hr, hf⟩ | ⟨r, hr, hf | ⟨-, _, -, hf⟩ | ⟨_, -, _, -, -, hf⟩⟩
    · cases hf; exact .inl ⟨e, he, hrst, r, hr, rfl⟩
    · cases hf; exact .inr ⟨_, hr, .inl rfl⟩
    · cases hf
    · cases hf
  · rcases fetch_cases hrun with
      ⟨_, -, -, _, -, hf⟩ | ⟨_, hr, hf | ⟨hb, _, hi, hf⟩ | ⟨e, he, c, hc, hlen, hf⟩⟩
    · cases hf
    · cases hf
    · cases hf; exact .inr ⟨r, hr, .inr (.inl ⟨hb, i, hi, hexec⟩)⟩
    · cases hf
      exact .inr ⟨r, hr, .inr (.inr ⟨e, he, c, hc, hlen, exec_startInstr c.scheme c.len r ▸ hexec⟩)⟩

/-- A step of a scheme unit sets `DONE` or keeps it, and keeps `ERR` (40_mux_and_common.md R71, R72). -/
theorem exec_step_flags {i : Instr} {unit : BitVec 3} (hi : unitOf i = some unit)
    (h : exec i s = .next t) : (s.done = true → t.done = true) ∧ t.err = s.err := by
  obtain ⟨u, -, hexec⟩ := exec_of_unitOf hi s
  rcases mux_next (hexec.symm.trans h) with ⟨-, -, hcommit⟩ | ⟨-, rfl⟩
  · obtain ⟨rfl, -⟩ := commit_next hcommit
    exact ⟨fun hdone => by simp [doneAfter, hdone], rfl⟩
  · exact ⟨id, rfl⟩

/-- A START clears `DONE` only when it is accepted, and `ERR` only when its scheme is valid besides
(40_mux_and_common.md R70; 60_exceptions.md R135). -/
theorem start_flags {c : BitVec 3} {n : Nat} (h : start c n s = .next t) :
    (s.done = true → t.done = false → s.busy = false) ∧
      (s.err = true → t.err = false → s.busy = false ∧ c.toNat < 6) := by
  rcases start_next h with ⟨-, rfl⟩ | ⟨hb, -, rfl⟩ | ⟨hb, hv, -, -, rfl⟩
  · exact ⟨fun h1 h0 => by simp [h1] at h0, fun h1 h0 => by simp [h1] at h0⟩
  · exact ⟨fun _ _ => hb, fun _ h0 => by simp at h0⟩
  · exact ⟨fun _ _ => hb, fun _ _ => ⟨hb, hv⟩⟩

end

/-- Settles O41: of all that a step can do, only a reset and an accepted START clear a flag. -/
theorem flagsClearedOnlyByStartOrReset : Obligations.FlagsClearedOnlyByStartOrReset := by
  intro s t h
  rcases step_cases h with ⟨e, he, hrst, -⟩ | ⟨r, hr, hrun⟩
  · exact ⟨fun _ _ => ⟨e, he, .inl hrst⟩, fun _ _ => ⟨e, he, .inl hrst⟩⟩
  obtain ⟨hb, hdone, herr⟩ := hr.flags
  rw [← hb, ← hdone, ← herr]
  rcases hrun with rfl | ⟨-, i, hi, hexec⟩ | ⟨e, he, c, hc, -, hstart⟩
  · exact ⟨fun h1 h0 => by simp [h1] at h0, fun h1 h0 => by simp [h1] at h0⟩
  · obtain ⟨hset, hkept⟩ := exec_step_flags (unitOf_of_selectStep hi) hexec
    exact ⟨fun h1 h0 => by simp [hset h1] at h0, fun h1 h0 => by simp [hkept, h1] at h0⟩
  · obtain ⟨hclear, hvalid⟩ := start_flags hstart
    refine ⟨fun h1 h0 => ⟨e, he, .inr ⟨hclear h1 h0, ?_⟩⟩, fun h1 h0 => ⟨e, he, .inr ?_⟩⟩
    · exact Option.isSome_iff_exists.2 ⟨c, hc⟩
    · exact ⟨(hvalid h1 h0).1, c, hc, (hvalid h1 h0).2⟩

end Sys2Proof.Machine
end

section
/-! The step of a running frame in a state that meets the invariant, whatever stands on the ports: it
commits the output of the selected step, which goes on from the scan position. -/

namespace Sys2Proof.Machine

section
variable {s t : State} {i : Instr} {u : UnitOutput}

/-- What the invariant says of a running frame. -/
theorem State.Inv.frame (h : s.Inv) : s.frameOk := by
  obtain ⟨-, -, hframe, -⟩ := h
  exact hframe

/-- The bit string that IBUF holds for the frame of `s`. -/
def State.frameBits (s : State) : List Sym :=
  (List.range s.len).map fun j => (s.ibuf.read j).getD .space

/-- `s` with nothing on its ports. -/
def State.silenced (s : State) : State := { s with edges := [] }

/-- Step selection does not look at the ports. -/
theorem selectStep_silenced (s : State) : selectStep s.silenced = selectStep s :=
  selectStep_congr (fun _ => rfl) rfl rfl rfl rfl rfl

/-- The invariant holds enough of a running frame for the step machine to go on in it. -/
theorem State.Inv.runsFrame (h : s.Inv) (hb : s.busy = true) : s.silenced.RunsFrame s.frameBits := by
  obtain ⟨-, ⟨hrunning, -⟩, hframe, -, hunused, -, hcount⟩ := h
  obtain ⟨hv, hp, hw, hsamples⟩ := hframe hb
  obtain ⟨hdone, herr⟩ := hrunning hb
  have hz : s.zcnt.toNat ≤ s.pos := by
    by_cases hs : s.scheme = 5
    · exact (hcount hb hs).1
    · simp [((hunused (.inl hb)).1 hs).1]
  refine ⟨rfl, hb, hdone, herr, hv, by simp [State.silenced, State.frameBits], fun j hj => ?_, hp, hz,
    hsamples⟩
  have hj : j < s.len := by simpa [State.frameBits] using hj
  obtain ⟨b, hread⟩ := Option.isSome_iff_exists.1 (hw j hj)
  simp [State.silenced, State.frameBits, hj, hread]

/-- The selected step of a running frame commits an output that advances it. -/
theorem State.Inv.exec_selected (h : s.Inv) (hb : s.busy = true) (hi : selectStep s = .ok i) :
    ∃ u, stepOutput i s = some u ∧ u.Advances s ∧ exec i s = .next (s.committed u) := by
  obtain ⟨u, hu, hexec⟩ := exec_of_unitOf (unitOf_of_selectStep hi) s
  have hadv : u.Advances s.silenced :=
    (h.runsFrame hb).advances ((selectStep_silenced s).trans hi)
      ((stepOutput_congr i rfl rfl rfl rfl).trans hu)
  obtain ⟨hnonneg, hle, hreaches, hstride, hinside, hz⟩ := hadv
  refine ⟨u, hu, ⟨hnonneg, hle, hreaches, hstride, hinside, hz⟩, ?_⟩
  have hinside : s.pos + u.stride ≤ s.len := hinside
  have hreaches : u.write.cell + u.write.levels.length = 2 * (s.pos + u.stride) := hreaches
  rw [hexec, mux_selected u hb rfl, commit_of_inRange hnonneg (by omega)]

/-- A step consumes one symbol, or eight in a B8ZS frame (10_state.md R14). -/
theorem stride_of_stepOutput {unit : BitVec 3} (hi : unitOf i = some unit)
    (hu : stepOutput i s = some u) : u.stride = 1 ∨ unit = 4 ∧ u.stride = 8 := by
  cases i with
  | unipolar _ | nrzL _ | nrzI _ | manchester _ | b8zs _ | hdb3 _ | illegal6 _ | illegal7 _ => cases hi
  | b8zsSubst => cases hi; cases hu; exact .inr ⟨rfl, rfl⟩
  | unipolarMark | unipolarZero | nrzLMark | nrzLZero | nrzIMark | nrzIZero | manchesterMark
  | manchesterZero | b8zsMark | b8zsZero | hdb3Mark | hdb3Zero | hdb3Subst000V | hdb3SubstB00V =>
    cases hu; exact .inl rfl

end

/-- Settles O37: the step selected in the frame commits an output that ends inside the frame. -/
theorem scanPositionAdvances : Obligations.ScanPositionAdvances := by
  intro s h hedges hb
  obtain ⟨hv, hp, hw, -⟩ := h.frame hb
  obtain ⟨i, hi⟩ := exists_selectStep hv hw hp
  obtain ⟨u, hu, hadv, hexec⟩ := h.exec_selected hb hi
  refine ⟨s.committed u, (step_of_selected hedges hb hi).trans hexec, ?_, hadv.inside, rfl, rfl,
    fun hend => ?_, fun hmore => ?_⟩
  · rcases stride_of_stepOutput (unitOf_of_selectStep hi) hu with hone | ⟨hs, height⟩
    · exact .inl (by simp [hone])
    · exact .inr ⟨hs, by simp [height]⟩
  · have hend : s.pos + u.stride = s.len := hend
    simp [busyAfter, doneAfter, hend]
  · have hmore : s.pos + u.stride ≠ s.len := Nat.ne_of_lt hmore
    have hdone : s.done = false := (h.runsFrame hb).done
    simp [busyAfter, doneAfter, hmore, hdone]

end Sys2Proof.Machine
end

section
/-! The invariant, kept by every event: the accesses of the host, a reset, a START, and the step of each
scheme unit. The unused registers (10_state.md R19), the balance (44_hdb3.md R119) and the zero count
(R120) are each followed through the output of the selected step. -/

namespace Sys2Proof.Machine

section
variable {s r t : State} {i : Instr} {u : UnitOutput} {c : BitVec 3} {n : Nat}

/-! ## Events outside a frame -/

/-- Outside a frame, and with none complete, only the buffers and the flags are bound. -/
theorem State.Inv.of_idle (hbuffers : s.buffersOk) (hflags : s.flagsOk) (hb : s.busy = false)
    (hd : s.done = false) : s.Inv := by
  refine ⟨hbuffers, hflags, ?_, ?_, ?_, ?_, ?_⟩ <;> intro h <;> simp [hb, hd] at h

/-- The accesses of the host keep the invariant: IBUF is written at a cell that exists, and
in no frame. -/
theorem State.Inv.of_hostAccess (h : s.Inv) (hr : s.HostAccess r) : r.Inv := by
  obtain ⟨edges, m, d, n, hm, rfl⟩ := hr
  rcases hm with rfl | ⟨hb, a, v, ha, rfl⟩
  · exact h
  · obtain ⟨⟨hlenw, hlen, hiwf, howf, hibuf, hobuf⟩, hflags, -, hdone, hunused, hbal, -⟩ := h
    have notBusy {p : Prop} (hb' : s.busy = true) : p := by simp [hb] at hb'
    exact ⟨⟨hlenw, hlen, Memory.wf_write a v hiwf, howf, cellsBelow_write hibuf ha, hobuf⟩, hflags,
      notBusy, hdone, hunused, hbal, notBusy⟩

/-- The registers and buffers after a reset meet the invariant (10_state.md R22). -/
theorem State.Inv.hardReset (h : s.Inv) : s.hardReset.Inv := by
  obtain ⟨⟨hlenw, -⟩, -⟩ := h
  refine .of_idle ⟨hlenw, Nat.two_pow_pos _, rfl, rfl, ?_, ?_⟩ ⟨?_, ?_, ?_, ?_⟩ rfl rfl <;> simp

/-- The error entry meets the invariant: it latches an invalid scheme with its flag (R131). -/
theorem State.Inv.raiseInvalidSchemeId (h : s.Inv) (hc : 6 ≤ c.toNat) (hn : n < 2 ^ s.lenw) :
    (s.raiseInvalidSchemeId c n).Inv := by
  obtain ⟨⟨hlenw, -, hmem⟩, -⟩ := h
  exact .of_idle ⟨hlenw, hn, hmem⟩ (by simp [State.flagsOk, hc]) rfl rfl

/-- A frame begins with the invariant (10_state.md R21): no sample and no zero is behind the scan. -/
theorem State.Inv.startFrame (h : s.Inv) (hc : c.toNat < 6) (hn1 : 1 ≤ n) (hn : n < 2 ^ s.lenw)
    (hw : cellsWritten s.ibuf n) : (s.startFrame c n).Inv := by
  obtain ⟨⟨hlenw, -, hmem⟩, -⟩ := h
  refine ⟨⟨hlenw, hn, hmem⟩, by simp [State.flagsOk], fun _ => ⟨hc, hn1, hw, ?_⟩, ?_, ?_, ?_, ?_⟩
  · simp [cellsWritten]
  · simp [State.doneOk]
  · simp [State.unusedOk]
  · simp [State.hdb3BalanceOk, balanceOk]
  · simp [State.hdb3CountOk]

/-- A START of a length that the port can carry keeps the invariant. -/
theorem State.Inv.start (h : s.Inv) (hn : n < 2 ^ s.lenw) (ht : start c n s = .next t) : t.Inv := by
  rcases start_next ht with ⟨-, rfl⟩ | ⟨-, hc, rfl⟩ | ⟨-, hc, hn1, hw, rfl⟩
  · exact h
  · exact h.raiseInvalidSchemeId hc hn
  · exact h.startFrame hc hn1 hn hw

/-! ## The registers through a step -/

/-- A unit leaves a register that its scheme does not use as it is (10_state.md R19). -/
theorem unused_of_stepOutput {unit : BitVec 3} (hi : unitOf i = some unit)
    (hu : stepOutput i s = some u) :
    (unit ≠ 5 → u.zcnt = s.zcnt ∧ u.bal = s.bal) ∧
      (unit = 0 ∨ unit = 1 ∨ unit = 3 → u.pol = s.pol) := by
  cases i with
  | unipolar _ | nrzL _ | nrzI _ | manchester _ | b8zs _ | hdb3 _ | illegal6 _ | illegal7 _ => cases hi
  | unipolarMark | unipolarZero | nrzLMark | nrzLZero | manchesterMark | manchesterZero =>
    cases hi; cases hu; exact ⟨fun _ => ⟨rfl, rfl⟩, fun _ => rfl⟩
  | nrzIMark | nrzIZero | b8zsSubst | b8zsMark | b8zsZero =>
    cases hi; cases hu; exact ⟨fun _ => ⟨rfl, rfl⟩, fun h => absurd h (by decide)⟩
  | hdb3Mark | hdb3Zero | hdb3Subst000V | hdb3SubstB00V =>
    cases hi; exact ⟨fun h => absurd rfl h, fun h => absurd h (by decide)⟩

/-- The four steps that HDB3 can select, each with the condition of 44_hdb3.md R110 that selects it. -/
theorem selectStep_hdb3_cases (hs : s.scheme = 5) (hi : selectStep s = .ok i) :
    i = .hdb3Mark ∨
      (i = .hdb3Zero ∧ s.ibuf.read s.pos = some .space ∧ s.zcnt ≠ 3) ∨
      (i = .hdb3Subst000V ∧ 0 ≤ s.bal) ∨ (i = .hdb3SubstB00V ∧ s.bal < 0) := by
  rcases selectStep_cases hi with ⟨b, hread, -⟩ | ⟨hs', -⟩ | ⟨hs', -⟩
  · obtain ⟨hp, hb⟩ := readSymbol_eq_ok.1 hread
    obtain rfl : hdb3StepOf b s.zcnt s.bal = i :=
      Except.ok.inj ((selectStep_hdb3 hs hp hb).symm.trans hi)
    cases b with
    | mark => exact .inl rfl
    | space =>
      dsimp only [hdb3StepOf]
      split_ifs with hz hbal
      · exact .inr (.inr (.inr ⟨rfl, hbal⟩))
      · exact .inr (.inr (.inl ⟨rfl, Int.not_lt.1 hbal⟩))
      · exact .inr (.inl ⟨rfl, hb, hz⟩)
  · simp [hs] at hs'
  · simp [hs] at hs'

/-- The sharp range of `BAL`, by polarity (44_hdb3.md R119). -/
theorem balanceOk_iff (p : Pol) (b : Int) :
    balanceOk p b ↔ match p with | .plus => -2 ≤ b | .minus => -1 ≤ b := by
  cases p <;> simp [balanceOk] <;> omega

/-- The balance stays in its sharp range through every selected HDB3 step (44_hdb3.md R119). -/
theorem balance_of_stepOutput (hs : s.scheme = 5) (hi : selectStep s = .ok i)
    (hu : stepOutput i s = some u) (habs : s.bal.natAbs ≤ s.pos) (hok : balanceOk s.pol s.bal) :
    u.bal.natAbs ≤ s.pos + u.stride ∧ balanceOk u.pol u.bal := by
  simp only [balanceOk_iff] at hok ⊢
  rcases selectStep_hdb3_cases hs hi with rfl | ⟨rfl, -, -⟩ | ⟨rfl, hbal⟩ | ⟨rfl, hbal⟩ <;> cases hu
  · cases hpol : s.pol <;> rw [hpol] at hok <;>
      simp only [Pol.flip, Pol.toInt, State.plainOutput_stride] at hok ⊢ <;> omega
  · exact ⟨Nat.le_add_right_of_le habs, hok⟩
  · cases hpol : s.pol <;> simp only [Pol.flip, Pol.toInt, State.plainOutput_stride] <;> omega
  · have hv : b00vPulse s.bal = .minus := if_pos (by omega)
    have hsharp : -2 ≤ s.bal := by cases hpol : s.pol <;> simp only [hpol] at hok <;> omega
    simp only [hv, Pol.flip, Pol.toInt, State.plainOutput_stride]
    omega

/-- Every selected HDB3 step clears the zero count, or is a ZERO at the symbol 0 that counts it: no
count of 3 is counted further (44_hdb3.md R112, R120). -/
theorem zcnt_of_stepOutput (hs : s.scheme = 5) (hi : selectStep s = .ok i)
    (hu : stepOutput i s = some u) :
    u.zcnt = 0 ∨
      (u.zcnt.toNat = s.zcnt.toNat + 1 ∧ s.ibuf.read s.pos = some .space ∧ u.stride = 1 ∧
        u.write = emitHeld s.pos .zero) := by
  rcases selectStep_hdb3_cases hs hi with rfl | ⟨rfl, hread, hz⟩ | ⟨rfl, -⟩ | ⟨rfl, -⟩ <;> cases hu
  · exact .inl rfl
  · refine .inr ⟨?_, hread, rfl, rfl⟩
    have hlt := s.zcnt.isLt
    have hne : s.zcnt.toNat ≠ 3 := fun h => hz (BitVec.eq_of_toNat_eq h)
    exact BitVec.toNat_add_of_lt (show s.zcnt.toNat + 1 < 4 by omega)
  · exact .inl rfl
  · exact .inl rfl

/-! ## The parts of the invariant through a step -/

/-- A committed output keeps the buffers: its block stands inside the frame. -/
theorem UnitOutput.Advances.buffersOk_committed (hadv : u.Advances s) (h : s.buffersOk) :
    (s.committed u).buffersOk := by
  obtain ⟨hlenw, hlen, hiwf, howf, hibuf, hobuf⟩ := h
  refine ⟨hlenw, hlen, hiwf, Memory.wf_writeList _ _ howf, hibuf, cellsBelow_writeList hobuf ?_⟩
  have hnonneg := hadv.cell_nonneg
  have hreaches := hadv.reaches
  have hinside := hadv.inside
  have hmax : s.len ≤ (s.committed u).maxLen := Nat.le_sub_one_of_lt hlen
  omega

/-- A ZERO adds its symbol and its two samples to the zeros behind the scan (44_hdb3.md R120). -/
theorem UnitOutput.Advances.hdb3CountOk_committed (hadv : u.Advances s) (h : s.hdb3CountOk)
    (hb : s.busy = true) (hi : selectStep s = .ok i) (hu : stepOutput i s = some u) :
    (s.committed u).hdb3CountOk := by
  intro _ (hs : s.scheme = 5)
  obtain ⟨-, hsymbols, hsamples⟩ := h hb hs
  refine ⟨hadv.zcnt_le, ?_⟩
  rcases zcnt_of_stepOutput hs hi hu with hz | ⟨hz, hread, hstride, hwrite⟩
  · simp [hz]
  simp only [State.committed_zcnt, State.committed_pos, State.committed_ibuf, hz, hstride]
  constructor
  · rintro (_ | j) hj
    · exact hread
    · rw [show s.pos + 1 - 1 - (j + 1) = s.pos - 1 - j by omega]
      exact hsymbols j (by omega)
  · intro k hk
    have hle := hadv.zcnt_le
    have hcell : u.write.cell.toNat = 2 * s.pos := by
      rw [hwrite]
      exact Int.toNat_natCast (2 * s.pos)
    rw [hadv.read_committed (by omega), hcell]
    by_cases hnew : k < 2
    · rw [if_neg (by omega), hwrite]
      have hlevel : ∀ j < 2, [Level.zero, Level.zero][j]? = some .zero := by decide
      exact hlevel _ (by omega)
    · rw [if_pos (by omega), show 2 * (s.pos + 1) - 1 - k = 2 * s.pos - 1 - (k - 2) by omega]
      exact hsamples _ (by omega)

/-- The registers that the scheme does not use keep their START values (10_state.md R19). -/
theorem unusedOk_committed (h : s.unusedOk) (hb : s.busy = true) (hi : selectStep s = .ok i)
    (hu : stepOutput i s = some u) : (s.committed u).unusedOk := by
  intro _
  obtain ⟨hregs, hpol⟩ := h (.inl hb)
  obtain ⟨hregs', hpol'⟩ := unused_of_stepOutput (unitOf_of_selectStep hi) hu
  refine ⟨fun hs => ?_, fun hs => (hpol' hs).trans (hpol hs)⟩
  exact ⟨(hregs' hs).1.trans (hregs hs).1, (hregs' hs).2.trans (hregs hs).2⟩

/-- A step of a running frame keeps the invariant. -/
theorem State.Inv.committed (h : s.Inv) (hb : s.busy = true) (hi : selectStep s = .ok i)
    (hu : stepOutput i s = some u) (hadv : u.Advances s) : (s.committed u).Inv := by
  have hdone : s.done = false := (h.runsFrame hb).done
  have herr : (s.committed u).err = false := (h.runsFrame hb).err
  obtain ⟨hbuffers, ⟨-, -, -, hnoerr⟩, hframe, -, hunused, hbalance, hcount⟩ := h
  obtain ⟨hv, -, hw, hsamples⟩ := hframe hb
  have hwritten := hadv.cellsWritten_committed hsamples
  have hinside := hadv.inside
  have hstride := hadv.stride_pos
  have running : (s.committed u).busy = true ↔ s.pos + u.stride ≠ s.len := by simp [busyAfter]
  have ended : (s.committed u).done = true ↔ s.pos + u.stride = s.len := by simp [doneAfter, hdone]
  refine ⟨hadv.buffersOk_committed hbuffers,
    ⟨fun hb' => ⟨?_, herr⟩, fun _ => herr,
      fun he => absurd (he.symm.trans herr) Bool.noConfusion, hnoerr⟩,
    fun hb' => ⟨hv, hinside.lt_of_ne (running.1 hb'), hw, hwritten⟩,
    fun hd => ⟨hv, ?_, ended.1 hd, ended.1 hd ▸ hwritten⟩,
    unusedOk_committed hunused hb hi hu, fun _ hs => ?_, hadv.hdb3CountOk_committed hcount hb hi hu⟩
  · exact Bool.eq_false_iff.2 fun hd => running.1 hb' (ended.1 hd)
  · exact le_trans (by omega) hinside
  · obtain ⟨habs, hok⟩ := hbalance (.inl hb) hs
    exact balance_of_stepOutput hs hi hu habs hok

end

/-- Settles O34: every event of a step keeps the invariant. -/
theorem invariantKeptByEveryStep : Obligations.InvariantKeptByEveryStep := by
  intro s t h hstep
  rcases step_cases hstep with ⟨-, -, -, r, hr, rfl⟩ | ⟨r, hr, hrun⟩
  · exact (h.of_hostAccess hr).hardReset
  have hr' := h.of_hostAccess hr
  rcases hrun with rfl | ⟨hb, i, hi, hexec⟩ | ⟨-, -, c, -, hlen, hstart⟩
  · exact hr'
  · obtain ⟨u, hu, hadv, hcommit⟩ := hr'.exec_selected hb hi
    cases hcommit.symm.trans hexec
    exact hr'.committed hb hi hu hadv
  · exact hr'.start (hr.lenw ▸ hlen) hstart

end Sys2Proof.Machine
end

section
/-! The registers as the host finds them: after reset, after an accepted START, and at a read. -/

namespace Sys2Proof.Machine

/-- The reset state of every width is idle, with empty buffers and nothing on the ports (R22). -/
theorem inv_resetOf {lenw : Nat} (h : 1 ≤ lenw) : (State.resetOf lenw).Inv := by
  obtain ⟨hiwf, howf⟩ := reset_memories_wf lenw
  exact .of_idle ⟨h, Nat.two_pow_pos lenw, hiwf, howf, nofun, nofun⟩
    ⟨nofun, nofun, nofun, fun _ => rfl⟩ rfl rfl

/-- Settles O33: the machine's own reset state is the one of 16-bit lengths. -/
theorem invariantHoldsAtReset : Obligations.InvariantHoldsAtReset :=
  ⟨inv_resetOf (by decide : 1 ≤ Config.lenw), fun _ h => inv_resetOf h⟩

/-- An idle machine with nothing on the ports stays as it is (60_exceptions.md R142). -/
theorem step_idle {s : State} (he : s.edges = []) (hb : s.busy = false) : step s = .next s := by
  simp [step, fetch, he, hb]

/-- Settles O26: every register has its reset value by definition, and the reset state is idle. -/
theorem resetRegisters : Obligations.ResetRegisters := by
  have values (lenw : Nat) : let s := State.resetOf lenw
      s.busy = false ∧ s.done = false ∧ s.err = false ∧ s.errcode = 0 ∧ s.scheme = 0 ∧ s.len = 0 ∧
        s.pol = .plus ∧ s.zcnt = 0 ∧ s.bal = 0 ∧ s.pos = 0 ∧
        (∀ k, s.ibuf.read k = none) ∧ (∀ k, s.obuf.read k = none) ∧ step s = .next s :=
    ⟨rfl, rfl, rfl, rfl, rfl, rfl, rfl, rfl, rfl, rfl, Memory.read_nil, Memory.read_nil,
      step_idle rfl rfl⟩
  intro lenw s hs
  rcases List.mem_pair.1 hs with rfl | rfl
  · exact values lenw
  · exact values Config.lenw

/-- Settles O1: each of the six rows is the START of a valid scheme, which is accepted. -/
theorem acceptedStartInitialisesFrame : Obligations.AcceptedStartInitialisesFrame := by
  intro s len hb hlen hw p hp
  obtain ⟨hexec, hv⟩ : exec p.1 s = start p.2 len s ∧ p.2.toNat < 6 := by
    simp only [List.mem_cons, List.not_mem_nil, or_false] at hp
    rcases hp with rfl | rfl | rfl | rfl | rfl | rfl <;> exact ⟨rfl, by simp⟩
  exact hexec.trans (start_accepted hb hv hlen hw)

/-- The fields of `STATUS` (10_state.md R18). -/
theorem statusWord_fields (s : State) :
    s.statusWord.getLsbD 0 = s.busy ∧ s.statusWord.getLsbD 1 = s.done ∧
      s.statusWord.getLsbD 2 = s.err ∧ s.statusWord.extractLsb' 3 2 = s.errcode := by
  have low : ∀ err done busy : Bool,
      let w := BitVec.ofBool err ++ (BitVec.ofBool done ++ BitVec.ofBool busy)
      w.getLsbD 0 = busy ∧ w.getLsbD 1 = done ∧ w.getLsbD 2 = err := by decide
  have below (i : Nat) (hi : i < 3) : s.statusWord.getLsbD i =
      (BitVec.ofBool s.err ++ (BitVec.ofBool s.done ++ BitVec.ofBool s.busy)).getLsbD i :=
    BitVec.getLsbD_append.trans (if_pos hi)
  obtain ⟨hbusy, hdone, herr⟩ := low s.err s.done s.busy
  exact ⟨(below 0 (by decide)).trans hbusy, (below 1 (by decide)).trans hdone,
    (below 2 (by decide)).trans herr, BitVec.extractLsb'_append_eq_left⟩

/-- Settles O32: the bits of `STATUS` stand in their fields; the rest is the definition of the reads. -/
theorem statusAndRegisterReads : Obligations.StatusAndRegisterReads := fun s =>
  ⟨statusWord_fields s, ⟨rfl, rfl, rfl, rfl⟩, rfl⟩

end Sys2Proof.Machine
end

section
/-! The buffers as the host reaches them: what one access on an edge does, that no access and no step
leaves a buffer's range, and what a running frame and an idle block keep (20_memory.md). -/

namespace Sys2Proof.Machine

section
variable {s r t : State} {e : Edge} {i : Instr} {flt : Fault}

/-! ## One access of the host on an edge -/

/-- An edge that carries only accesses of the host leads to the state after them. -/
theorem step_of_accessEdge {rest : List Edge} (hfits : e.fits s.lenw = true) (hrst : e.rst = false)
    (hcmd : e.cmd = none) (hends : e.stepEnds = false)
    (haccess : edgeWrite e (edgeRead e { s with edges := rest }) = .ok t) :
    step { s with edges := e :: rest } = .next t := by
  simp [step, fetch, fetchEdge, hfits, hrst, haccess, hends, hcmd, fetchCommand]

/-- An edge that carries only a read of OBUF does what the read does. -/
theorem step_of_readEdge {k : Nat} (rest : List Edge) (hk : k < 2 ^ (s.lenw + 1)) :
    step { s with edges := { obufAddr := some k } :: rest } =
      .next (hostReadObuf k { s with edges := rest }) :=
  step_of_accessEdge (by simp [Edge.fits, obufAddrFits, hk]) rfl rfl rfl rfl

/-- A read of no valid sample delivers the next free value (20_memory.md R41; log entry 5). -/
theorem hostReadObuf_of_no_sample {k : Nat} (h : s.sampleAt k = none) :
    hostReadObuf k s =
      { s with obufRdata := Config.anySample s.anyCount, anyCount := s.anyCount + 1 } := by
  simp [hostReadObuf, h]

/-- A write at an index that names no cell is ignored (20_memory.md R36; log entry 9). -/
theorem hostWriteIbuf_of_no_cell {w : SymbolWrite} (h : s.maxLen ≤ w.addr) :
    hostWriteIbuf w s = .ok s :=
  if_neg (Nat.not_lt.2 h)

/-- In a complete frame every sample that the host may read is there (20_memory.md R41). -/
theorem State.Inv.exists_sampleAt {k : Nat} (h : s.Inv) (hd : s.done = true) (hk : k < 2 * s.len) :
    ∃ l, s.obuf.read k = some l ∧ s.sampleAt k = some l := by
  obtain ⟨-, -, -, hdone, -⟩ := h
  obtain ⟨-, -, -, hw⟩ := hdone hd
  obtain ⟨l, hl⟩ := Option.isSome_iff_exists.1 (hw k hk)
  exact ⟨l, hl, by simp [State.sampleAt, hd, hk, hl]⟩

/-- The last sample index of any frame fits the port `obuf_addr` (20_memory.md R36). -/
theorem State.Inv.sampleIndex_fits {k : Nat} (h : s.Inv) (hk : k < 2 * s.len) :
    k < 2 ^ (s.lenw + 1) := by
  obtain ⟨⟨-, hlen, -⟩, -⟩ := h
  rw [Nat.pow_succ]
  omega

/-! ## Faults -/

/-- The encoder's turn stops only where no step can be selected. -/
theorem fetchStep_error {x : Stop} (h : fetchStep s = .error x) : selectStep s = .error x := by
  unfold fetchStep at h
  split at h
  · next hi => cases h; exact hi
  · cases h

/-- The command ports never lead to a fault. -/
theorem fetchCommand_ne_fault (c : Option Command) (s : State) (flt : Fault) :
    fetchCommand c s ≠ .error (.fault flt) := by
  unfold fetchCommand
  split
  · exact nofun
  · split <;> exact nofun

/-- A host write is ignored, done or refused, but never a fault (60_exceptions.md R132). -/
theorem edgeWrite_ne_fault (e : Edge) (s : State) (flt : Fault) :
    edgeWrite e s ≠ .error (.fault flt) := by
  unfold edgeWrite hostWriteIbuf
  split
  · exact nofun
  · split
    · split <;> exact nofun
    · exact nofun

/-- An edge leads to a fault only where a running encoder, after the accesses of the host, can select
no step. -/
theorem fetchEdge_fault {rest : List Edge}
    (h : fetchEdge e { s with edges := rest } = .error (.fault flt)) :
    ∃ r, s.HostAccess r ∧ r.busy = true ∧ selectStep r = .error (.fault flt) := by
  unfold fetchEdge at h
  split at h
  · cases h
  split at h
  · cases h
  split at h
  · next hwrite => cases h; exact absurd hwrite (edgeWrite_ne_fault _ _ _)
  next r hwrite =>
  split at h
  · next hb =>
    exact ⟨r, hostAccess_edgeWrite hwrite, (Bool.and_eq_true_iff.1 hb).1, fetchStep_error h⟩
  · exact absurd h (fetchCommand_ne_fault _ _ _)

/-- A fetch faults only where a running encoder, after the accesses of the host, can select no step. -/
theorem fetch_fault (h : fetch s = .error (.fault flt)) :
    ∃ r, s.HostAccess r ∧ r.busy = true ∧ selectStep r = .error (.fault flt) := by
  unfold fetch at h
  split at h
  · split at h
    · next hb => exact ⟨s, .refl s, hb, fetchStep_error h⟩
    · cases h
  · exact fetchEdge_fault h

/-- A step that faults has faulted in its fetch, or in the instruction that it fetched. -/
theorem step_fault (h : step s = .fault flt) :
    fetch s = .error (.fault flt) ∨ ∃ i r, fetch s = .ok (.run i r) ∧ exec i r = .fault flt := by
  unfold step at h
  split at h
  · cases h
  · next i r hr => exact .inr ⟨i, r, hr, h⟩
  · next hf => cases h; exact .inl hf
  · cases h

/-- Under the invariant the fetch never faults: a running frame always has a step to select. -/
theorem State.Inv.fetch_ne_fault (h : s.Inv) : fetch s ≠ .error (.fault flt) := by
  intro hf
  obtain ⟨r, hr, hb, hselect⟩ := fetch_fault hf
  obtain ⟨hv, hp, hw, -⟩ := (h.of_hostAccess hr).frame hb
  obtain ⟨i, hi⟩ := exists_selectStep hv hw hp
  cases hi.symm.trans hselect

/-- Under the invariant a fetched instruction never faults: a selected step commits its output inside
the frame, and a START has no fault. -/
theorem State.Inv.exec_fetched_ne_fault (h : s.Inv) (hf : fetch s = .ok (.run i r)) :
    exec i r ≠ .fault flt := by
  intro hexec
  rcases fetch_cases hf with
    ⟨_, -, -, _, -, hf⟩ | ⟨_, hr, hf | ⟨hb, _, hi, hf⟩ | ⟨_, -, c, -, -, hf⟩⟩
  · cases hf
  · cases hf
  · cases hf
    obtain ⟨u, -, -, hcommit⟩ := (h.of_hostAccess hr).exec_selected hb hi
    cases hcommit.symm.trans hexec
  · cases hf
    exact start_stops.1 flt ((exec_startInstr c.scheme c.len r).symm.trans hexec)

/-! ## What a running frame and an idle block keep -/

/-- No access of the host changes the command registers or OBUF (20_memory.md R31). -/
theorem State.HostAccess.frame (h : s.HostAccess r) :
    r.scheme = s.scheme ∧ r.len = s.len ∧ r.obuf = s.obuf := by
  obtain ⟨edges, m, d, n, -, rfl⟩ := h
  exact ⟨rfl, rfl, rfl⟩

/-- No access of the host changes IBUF while a frame runs (20_memory.md R40). -/
theorem State.HostAccess.ibuf_of_busy (h : s.HostAccess r) (hb : s.busy = true) :
    r.ibuf = s.ibuf := by
  obtain ⟨edges, m, d, n, rfl | ⟨hidle, -⟩, rfl⟩ := h
  · rfl
  · simp [hb] at hidle

/-- A START while `BUSY = 1` is dropped (70_reset_and_hazards.md R158). -/
theorem start_of_busy {c : BitVec 3} {n : Nat} (hb : s.busy = true) : start c n s = .next s :=
  if_pos hb

/-- No START touches OBUF, accepted or not (40_mux_and_common.md R70; 60_exceptions.md R131). -/
theorem start_obuf {c : BitVec 3} {n : Nat} (h : start c n s = .next t) : t.obuf = s.obuf := by
  rcases start_next h with ⟨-, rfl⟩ | ⟨-, -, rfl⟩ | ⟨-, -, -, -, rfl⟩ <;> rfl

/-- A step row, and a START while `BUSY = 1`, keeps the command registers and the error flags: the
first hands nothing of them to the mux, the second is dropped (R72, R158). -/
theorem exec_sameCommand (hi : s.busy = true ∨ unitOf i ≠ none) (h : exec i s = .next t) :
    s.sameCommand t := by
  rcases exec_cases i s with ⟨hnone, c, n, hexec⟩ | ⟨unit, u, -, -, hexec⟩
  · have hb : s.busy = true := hi.resolve_right (not_not_intro hnone)
    cases (start_of_busy hb).symm.trans (hexec.symm.trans h)
    exact ⟨rfl, rfl, rfl, rfl⟩
  · rcases mux_next (hexec.symm.trans h) with ⟨-, -, hcommit⟩ | ⟨-, rfl⟩
    · obtain ⟨rfl, -⟩ := commit_next hcommit
      exact ⟨rfl, rfl, rfl, rfl⟩
    · exact ⟨rfl, rfl, rfl, rfl⟩

/-- Everything a step without `rst` can do: the accesses of the host, and after them nothing, the
selected step of a running frame, or the START on the edge. -/
theorem step_cases_of_no_rst (hrst : ∀ e ∈ s.edges.head?, e.rst = false) (h : step s = .next t) :
    ∃ r, s.HostAccess r ∧
      (t = r ∨
       (r.busy = true ∧ ∃ i, selectStep r = .ok i ∧ exec i r = .next t) ∨
       ∃ e ∈ s.edges.head?, ∃ c ∈ e.cmd, start c.scheme c.len r = .next t) := by
  rcases step_cases h with ⟨e, he, hone, -⟩ | ⟨r, hr, hidle | hstep | ⟨e, he, c, hc, -, hstart⟩⟩
  · simp [hrst e he] at hone
  · exact ⟨r, hr, .inl hidle⟩
  · exact ⟨r, hr, .inr (.inl hstep)⟩
  · exact ⟨r, hr, .inr (.inr ⟨e, he, c, hc, hstart⟩)⟩

end

/-- Settles O29: index `MAXLEN` fits the port but names no cell. -/
theorem hostWriteAtMaxlenIsIgnored : Obligations.HostWriteAtMaxlenIsIgnored := by
  intro s rest d _
  have hfits : s.maxLen < 2 ^ s.lenw := Nat.sub_one_lt (Nat.two_pow_pos _).ne'
  exact step_of_accessEdge (by simp [Edge.fits, SymbolWrite.fits, hfits]) rfl rfl rfl
    (hostWriteIbuf_of_no_cell le_rfl)

/-- Settles O30: every sample of a complete frame is there to be read, at an index that fits. -/
theorem hostReadOfValidSample : Obligations.HostReadOfValidSample := by
  intro s k rest h hd hk
  obtain ⟨l, hl, hsample⟩ := h.exists_sampleAt hd hk
  refine ⟨l, hl, (step_of_readEdge rest (h.sampleIndex_fits hk)).trans ?_⟩
  exact congrArg Host.Outcome.next (hostReadObuf_of_sample (s := { s with edges := rest }) hsample)

/-- Settles O31: no frame is complete, or the index is beyond it, so there is no valid sample. -/
theorem hostReadOfAnyValue : Obligations.HostReadOfAnyValue := by
  intro s k rest hk hinvalid
  have hsample : s.sampleAt k = none := by
    rcases hinvalid with hd | hbeyond
    · simp [State.sampleAt, hd]
    · simp [State.sampleAt, Nat.not_lt.2 hbeyond]
  refine (step_of_readEdge rest hk).trans ?_
  exact congrArg Host.Outcome.next
    (hostReadObuf_of_no_sample (s := { s with edges := rest }) hsample)

/-- Settles O35: neither the fetch nor the instruction that it finds can fault. -/
theorem noFaultIsReachable : Obligations.NoFaultIsReachable := by
  intro s flt h hstep
  rcases step_fault hstep with hf | ⟨i, r, hf, hexec⟩
  · exact h.fetch_ne_fault hf
  · exact h.exec_fetched_ne_fault hf hexec

/-- Settles O39: the frame of every instruction, and the smaller one of step rows and dropped STARTs. -/
theorem instructionsKeepInputs : Obligations.InstructionsKeepInputs :=
  fun _ _ _ h => ⟨exec_sameOutside h, fun hi => exec_sameCommand hi h⟩

/-- Settles O40: while a frame runs the host can write no cell, the selected step is a step row, and a
START is dropped. -/
theorem frameOperandsAreFixed : Obligations.FrameOperandsAreFixed := by
  intro s t hb hrst h
  obtain ⟨r, hr, hrun⟩ := step_cases_of_no_rst hrst h
  obtain ⟨hscheme, hlen, -⟩ := hr.frame
  obtain ⟨hbusy, -⟩ := hr.flags
  have hrb : r.busy = true := hbusy.trans hb
  rw [← hscheme, ← hlen, ← hr.ibuf_of_busy hb]
  rcases hrun with rfl | ⟨-, i, -, hexec⟩ | ⟨e, -, c, -, hstart⟩
  · exact ⟨rfl, rfl, rfl⟩
  · obtain ⟨-, -, -, -, hibuf⟩ := exec_sameOutside hexec
    obtain ⟨hscheme', hlen', -⟩ := exec_sameCommand (.inl hrb) hexec
    exact ⟨hscheme', hlen', hibuf⟩
  · cases (start_of_busy hrb).symm.trans hstart
    exact ⟨rfl, rfl, rfl⟩

/-- Settles O52: an idle block runs no step, and a START, which it does run, leaves OBUF alone. -/
theorem idleBlockKeepsSamples : Obligations.IdleBlockKeepsSamples := by
  intro s t hb hrst h
  obtain ⟨r, hr, hrun⟩ := step_cases_of_no_rst hrst h
  obtain ⟨-, hlen, hobuf⟩ := hr.frame
  obtain ⟨hbusy, hdone, -⟩ := hr.flags
  have hrb : r.busy = false := hbusy.trans hb
  rcases hrun with rfl | ⟨hrunning, -⟩ | ⟨e, he, c, hc, hstart⟩
  · exact ⟨hobuf, fun _ => ⟨hrb, hdone, hlen, fun k => by simp [State.sampleAt, hdone, hlen, hobuf]⟩⟩
  · simp [hrb] at hrunning
  · refine ⟨(start_obuf hstart).trans hobuf, fun hquiet => ?_⟩
    simp [hquiet e he] at hc

end Sys2Proof.Machine
end

section
/-! The encodings (30_encoding.md): command words and step keys in both directions, the codes of values,
and the step that runs what was decoded. -/

namespace Sys2Proof.Machine

/-! ## Command words (R50 to R52) -/

/-- The instructions that belong to no scheme unit are the STARTs. -/
theorem exists_startInstr_of_unitOf {i : Instr} (h : unitOf i = none) :
    ∃ scheme len, i = startInstr scheme len := by
  cases i with
  | unipolar n => exact ⟨0, n, rfl⟩
  | nrzL n => exact ⟨1, n, rfl⟩
  | nrzI n => exact ⟨2, n, rfl⟩
  | manchester n => exact ⟨3, n, rfl⟩
  | b8zs n => exact ⟨4, n, rfl⟩
  | hdb3 n => exact ⟨5, n, rfl⟩
  | illegal6 n => exact ⟨6, n, rfl⟩
  | illegal7 n => exact ⟨7, n, rfl⟩
  | unipolarMark | unipolarZero | nrzLMark | nrzLZero | nrzIMark | nrzIZero | manchesterMark
  | manchesterZero | b8zsSubst | b8zsMark | b8zsZero | hdb3Mark | hdb3Zero | hdb3Subst000V
  | hdb3SubstB00V => cases h

/-- A START stands in a command word, of exactly its two operands, and belongs to no scheme unit. -/
theorem startInstr_encoding (scheme : BitVec 3) (len : Nat) :
    encode (startInstr scheme len) = .command (commandWord scheme len) ∧
      (∀ lenw, (startInstr scheme len).wf lenw = decide (len < 2 ^ lenw)) ∧
      unitOf (startInstr scheme len) = none := by
  obtain ⟨f, rfl⟩ : ∃ f : Fin 8, scheme = BitVec.ofFin f := ⟨scheme.toFin, rfl⟩
  match f with
  | 0 | 1 | 2 | 3 | 4 | 5 | 6 | 7 => exact ⟨rfl, fun _ => rfl, rfl⟩

/-- A command word is its two fields side by side. -/
theorem commandWord_fields (w : Nat) : commandWord (wordScheme w) (wordLen w) = w := by
  simp only [commandWord, wordScheme, wordLen, BitVec.toNat_ofNat]
  omega

/-- The length field of a command word is a length of the machine. -/
theorem wordLen_lt {lenw w : Nat} (h : w < 2 ^ (lenw + 3)) : wordLen w < 2 ^ lenw :=
  Nat.div_lt_of_lt_mul (by rwa [Nat.mul_comm, ← Nat.pow_add] : w < 2 ^ 3 * 2 ^ lenw)

/-- The key that `encode` gives a step row selects that row (R59). -/
theorem decodeCode_encode_of_unitOf {i : Instr} {unit : BitVec 3} (h : unitOf i = some unit)
    (lenw : Nat) : decodeCode lenw (encode i) = .ok i := by
  cases i with
  | unipolar | nrzL | nrzI | manchester | b8zs | hdb3 | illegal6 | illegal7 => cases h
  | unipolarMark | unipolarZero | nrzLMark | nrzLZero | nrzIMark | nrzIZero | manchesterMark
  | manchesterZero | b8zsSubst | b8zsMark | b8zsZero | hdb3Mark | hdb3Zero | hdb3Subst000V
  | hdb3SubstB00V => rfl

/-- Settles O22: a START comes back by its command word, a step row by its key. -/
theorem decodeOfEncode : Obligations.DecodeOfEncode := by
  intro lenw i hwf
  cases hunit : unitOf i with
  | none =>
    obtain ⟨scheme, len, rfl⟩ := exists_startInstr_of_unitOf hunit
    obtain ⟨hencode, hlen, -⟩ := startInstr_encoding scheme len
    rw [hencode]
    exact decode_commandWord scheme (of_decide_eq_true ((hlen lenw).symm.trans hwf))
  | some unit => exact decodeCode_encode_of_unitOf hunit lenw

/-- Settles O23: the START of the word's two fields, whose encoding puts the fields together again. -/
theorem commandWordsAreStarts : Obligations.CommandWordsAreStarts := by
  intro lenw w
  obtain ⟨hencode, hwf, hunit⟩ := startInstr_encoding (wordScheme w) (wordLen w)
  refine ⟨fun hw => ⟨_, if_pos hw, ?_, ?_, hunit⟩, fun hw => if_neg (Nat.not_lt.2 hw)⟩
  · rw [hencode, commandWord_fields]
  · rw [hwf, decide_eq_true (wordLen_lt hw)]

/-! ## Step keys (R57 to R59) -/

/-- Step selection answers the step of a row: the first one that matches, which is a row of the scheme. -/
theorem exists_row_of_decodeStep {scheme : BitVec 3} {key : BitVec 9} {i : Instr}
    (h : decodeStep scheme key = .ok i) :
    ∃ r ∈ stepRows, stepRows.find? (StepRow.matchesKey scheme key) = some r ∧ r.scheme = scheme ∧
      r.instr = i := by
  unfold decodeStep at h
  split at h
  · cases h
  split at h
  · next r hr =>
    have hmatch := List.find?_some hr
    simp only [StepRow.matchesKey, Bool.and_eq_true, beq_iff_eq] at hmatch
    exact ⟨r, List.mem_of_find?_eq_some hr, hr, hmatch.1, Except.ok.inj h⟩
  · cases h

/-- Each row's step belongs to the unit of the row's scheme. -/
theorem unitOf_stepRow : ∀ r ∈ stepRows, unitOf r.instr = some r.scheme := by decide

/-- A key of one bit is the key of a symbol (R53, R59). -/
theorem exists_symbol_of_key {key : BitVec 9} (h : key.toNat < 2) :
    ∃ b : Sym, key = BitVec.ofNat 9 b.code.toNat := by
  obtain h0 | h1 : key.toNat = 0 ∨ key.toNat = 1 := by omega
  · exact ⟨.space, BitVec.eq_of_toNat_eq h0⟩
  · exact ⟨.mark, BitVec.eq_of_toNat_eq h1⟩

/-- Step selection is total on the keys of the six schemes (R59). -/
theorem exists_decodeStep {scheme : BitVec 3} {key : BitVec 9} (hv : scheme.toNat < 6)
    (hk : key.toNat < 2 ^ keyWidth scheme) : ∃ i, decodeStep scheme key = .ok i := by
  rcases scheme_cases hv with rfl | rfl | rfl | rfl | rfl | rfl
  · obtain ⟨b, rfl⟩ := exists_symbol_of_key hk
    exact ⟨_, (decodeStep_symbol b).1⟩
  · obtain ⟨b, rfl⟩ := exists_symbol_of_key hk
    exact ⟨_, (decodeStep_symbol b).2.1⟩
  · obtain ⟨b, rfl⟩ := exists_symbol_of_key hk
    exact ⟨_, (decodeStep_symbol b).2.2.1⟩
  · obtain ⟨b, rfl⟩ := exists_symbol_of_key hk
    exact ⟨_, (decodeStep_symbol b).2.2.2⟩
  · exact ⟨_, decodeStep_b8zs key⟩
  · have all : ∀ n < 8, ∃ r ∈ stepRows, decodeStep 5 (BitVec.ofNat 9 n) = .ok r.instr := by decide
    obtain ⟨r, -, hr⟩ := all key.toNat hk
    exact ⟨r.instr, by rwa [BitVec.ofNat_toNat, BitVec.setWidth_eq] at hr⟩

/-- With `ge8 = 0` the symbol at `POS` alone selects the B8ZS step (R57). -/
theorem decodeStep_b8zs_tail {key : BitVec 9} (h : key.getLsbD 8 = false) :
    decodeStep 4 key = .ok (if key.getLsbD 7 then .b8zsMark else .b8zsZero) := by
  have hwindow : key ≠ 256#9 := by
    rintro rfl
    cases h
  rw [decodeStep_b8zs, if_neg hwindow]

/-- Settles O18: some step is selected, which is that of the first matching row. -/
theorem everyKeySelectsAStep : Obligations.EveryKeySelectsAStep := by
  refine ⟨fun scheme key hv hk => ?_, fun a b ha hb hfirst => ?_⟩
  · obtain ⟨i, hi⟩ := exists_decodeStep hv hk
    obtain ⟨r, hmem, hfind, hscheme, rfl⟩ := exists_row_of_decodeStep hi
    exact ⟨r, hmem, hfind, hscheme, hi, hscheme ▸ unitOf_stepRow r hmem⟩
  · rw [decodeStep_b8zs_tail ha, decodeStep_b8zs_tail hb, hfirst]

/-- Settles O24: the STARTs are command words of lengths that fit, the keys stand in Decode.lean. -/
theorem wordsOfTheSpecDecode : Obligations.WordsOfTheSpecDecode :=
  ⟨decode_commandWord 0 (by decide : 10 < 2 ^ 16), decode_commandWord 1 (by decide : 5 < 2 ^ 16),
    decode_commandWord 2 (by decide : 1 < 2 ^ 16), decode_commandWord 3 (by decide : 2 < 2 ^ 16),
    decode_commandWord 4 (by decide : 19 < 2 ^ 16), decode_commandWord 5 (by decide : 10 < 2 ^ 16),
    decode_commandWord 6 (by decide : 5 < 2 ^ 16), decode_commandWord 7 (by decide : 1 < 2 ^ 16),
    decode_key_unipolarMark, decode_key_nrzLZero, decode_key_nrzIMark, decode_key_manchesterZero,
    decode_key_b8zsSubst, decode_key_hdb3SubstB00V⟩

/-! ## Codes of levels and polarities (R54, R55) -/

/-- The code of a level is the level in two's complement, and never `10`. -/
theorem Level.code_spec (l : Level) : l.code ≠ 0b10 ∧ l.code.toInt = l.toInt := by
  cases l <;> decide

/-- Inverting the bit of a polarity flips it. -/
theorem Pol.code_flip (p : Pol) : p.flip.code = ~~~p.code := by cases p <;> rfl

/-- The bit of a polarity, followed by 1, is the code of its level. -/
theorem Pol.code_level (p : Pol) : p.level.code = p.code ++ (1 : BitVec 1) := by cases p <;> rfl

/-- Settles O25: the codes are the definitions; the rest holds level by level and for both polarities. -/
theorem codesOfTheSpec : Obligations.CodesOfTheSpec :=
  ⟨⟨rfl, rfl, Sym.ofCode_code⟩, ⟨rfl, rfl, rfl, Level.code_spec⟩,
    rfl, rfl, fun p => ⟨Pol.code_flip p, Pol.code_level p, Pol.toInt_flip p⟩⟩

/-! ## Running what was decoded (R62, R71) -/

/-- A step executes what the fetch has found to run. -/
theorem step_of_fetch_run {s t : State} {i : Instr} (h : fetch s = .ok (.run i t)) :
    step s = exec i t := by
  simp only [step, h]

/-- What the oldest edge leads to, once its read and its write are done: the encoder's turn where a step
of the running frame ends, else the command ports (log entry 11). -/
theorem fetch_of_edge {s u : State} {e : Edge} {rest : List Edge} (hedges : s.edges = e :: rest)
    (hfits : e.fits s.lenw = true) (hrst : e.rst = false)
    (haccess : edgeWrite e (edgeRead e { s with edges := rest }) = .ok u) :
    fetch s = if u.busy = true ∧ e.stepEnds = true then fetchStep u else fetchCommand e.cmd u := by
  simp [fetch, hedges, fetchEdge, hfits, hrst, haccess]

/-- Settles O20: in each case the fetch finds the decoded instruction. -/
theorem stepExecutesFetchedInstruction : Obligations.StepExecutesFetchedInstruction := by
  refine ⟨fun s i => step_of_selected, ?_, ?_⟩
  · intro s u e rest c i hedges hfits hrst hcmd haccess hends hdecode
    apply step_of_fetch_run
    rw [fetch_of_edge hedges hfits hrst haccess, if_neg hends]
    simp only [fetchCommand, hcmd, hdecode]
  · intro s u e rest i hedges hfits hrst haccess hb hends hselect
    apply step_of_fetch_run
    rw [fetch_of_edge hedges hfits hrst haccess, if_pos ⟨hb, hends⟩]
    simp only [fetchStep, hselect]

end Sys2Proof.Machine
end

section
/-! A whole run of a frame: what every step of it keeps holds at `DONE`; how many steps it takes
(40_mux_and_common.md R83). -/

namespace Sys2Proof.Machine

section
variable {s r : State} {bits : List Sym} {i : Instr} {u : UnitOutput}

/-- A frame runs to `DONE`, and what each of its steps carries on, from one number of steps to the next,
holds there of the number of steps it took. -/
theorem State.RunsFrame.exists_runsToDone {P : Nat → State → Prop}
    (carried : ∀ j r i u, r.RunsFrame bits → P j r → selectStep r = .ok i → stepOutput i r = some u →
      u.Advances r → P (j + 1) (r.committed u))
    {j : Nat} (h : s.RunsFrame bits) (hP : P j s) :
    ∃ k t, s.runsToDone k t bits.length ∧ P (j + k) t := by
  induction hrest : s.len - s.pos using Nat.strong_induction_on generalizing s j with
  | _ rest ih =>
    obtain ⟨i, u, hi, hu, hadv, hstep⟩ := h.step_eq
    have hnext := carried j s i u h hP hi hu hadv
    have hstride := hadv.stride_pos
    have hp := h.pos_lt
    rcases hadv.inside.lt_or_eq with hmore | hend
    · have hr := h.committed hadv hmore
      obtain ⟨k, t, hk, ht⟩ := ih _ (by simp; omega) hr hnext rfl
      refine ⟨k + 1, t, runsToDone_succ hstep ⟨hr.busy, hr.done⟩ hk, ?_⟩
      rwa [show j + (k + 1) = j + 1 + k by omega]
    · exact ⟨1, _, h.runsToDone_last hstep hend, hnext⟩

/-- At `DONE` the scan has reached the end of the frame (40_mux_and_common.md R71). -/
theorem pos_of_runsToDone {k n : Nat} (h : s.runsToDone k r n) : r.pos = n := by
  obtain ⟨-, -, -, -, -, hpos, -⟩ := h
  exact hpos

/-- `r` is `j` steps further in the frame of `s`: each step has consumed one symbol, or up to eight
in a B8ZS frame (10_state.md R14). -/
structure State.StepsAhead (s : State) (j : Nat) (r : State) : Prop where
  scheme : r.scheme = s.scheme
  least : s.pos + j ≤ r.pos
  most : r.pos ≤ s.pos + 8 * j
  exact_of_ne : s.scheme ≠ 4 → r.pos = s.pos + j

/-- A selected step is one step further. -/
theorem State.StepsAhead.committed {j : Nat} (h : s.StepsAhead j r) (hi : selectStep r = .ok i)
    (hu : stepOutput i r = some u) : s.StepsAhead (j + 1) (r.committed u) := by
  obtain ⟨hscheme, hleast, hmost, hexact⟩ := h
  rcases stride_of_stepOutput (unitOf_of_selectStep hi) hu with hone | ⟨hfour, height⟩
  · refine ⟨hscheme, ?_, ?_, fun hne => ?_⟩ <;> simp only [State.committed_pos, hone]
    · omega
    · omega
    · rw [hexact hne]; omega
  · refine ⟨hscheme, ?_, ?_, fun hne => absurd (hscheme.symm.trans hfour) hne⟩ <;>
      simp only [State.committed_pos, height] <;> omega

end

/-- Settles O38: the run from `s` is one of silent ports, and its last step ends at `LEN`. -/
theorem runningFrameReachesDone : Obligations.RunningFrameReachesDone := by
  intro s h hedges hb
  have hsilenced : s.silenced = s := by rw [State.silenced, ← hedges]
  have hframe : s.RunsFrame s.frameBits := hsilenced ▸ h.runsFrame hb
  obtain ⟨k, t, hrun, hahead⟩ := hframe.exists_runsToDone (P := s.StepsAhead)
    (fun _ _ _ _ _ hj hi hu _ => hj.committed hi hu) (j := 0) ⟨rfl, le_rfl, le_rfl, fun _ => rfl⟩
  rw [← hframe.len] at hrun
  have hend := pos_of_runsToDone hrun
  obtain ⟨-, hleast, hmost, hexact⟩ := hahead
  refine ⟨k, t, hrun, by omega, by omega, fun hne => ?_⟩
  have := hexact hne
  omega

end Sys2Proof.Machine
end

section
/-! The mux and the ports (40_mux_and_common.md R70 to R72, R78): a step that no unit owns, a host write of
IBUF, a START while `BUSY = 1`, and an edge at which nothing happens. -/

namespace Sys2Proof.Machine

section
variable {s s' u : State} {e e' : Edge} {i : Instr} {rest : List Edge} {w : SymbolWrite}

/-! ## One edge, by what stands on it -/

/-- At an edge with `rst = 1` only the read of OBUF comes before the reset (70_reset_and_hazards.md R150). -/
theorem step_of_resetEdge (hedges : s.edges = e :: rest) (hfits : e.fits s.lenw = true)
    (hrst : e.rst = true) : step s = .next (edgeRead e { s with edges := rest }).hardReset := by
  simp [step, fetch, hedges, fetchEdge, hfits, hrst]

/-- A write of IBUF that stops, stops the fetch (60_exceptions.md R132). -/
theorem fetch_of_edgeWrite_error {x : Stop} (hedges : s.edges = e :: rest)
    (hfits : e.fits s.lenw = true) (hrst : e.rst = false)
    (haccess : edgeWrite e (edgeRead e { s with edges := rest }) = .error x) :
    fetch s = .error x := by
  simp [fetch, hedges, fetchEdge, hfits, hrst, haccess]

/-- Where no step of the encoder ends, the ports alone decide: the START on them runs, after the accesses
of the host (40_mux_and_common.md R78). -/
theorem step_of_portsEdge (hedges : s.edges = e :: rest) (hfits : e.fits s.lenw = true)
    (hrst : e.rst = false) (haccess : edgeWrite e (edgeRead e { s with edges := rest }) = .ok u)
    (hends : ¬(u.busy = true ∧ e.stepEnds = true)) :
    (e.cmd = none → step s = .next u) ∧
      ∀ c, e.cmd = some c → step s = exec (startInstr c.scheme c.len) u := by
  have hfetch := fetch_of_edge hedges hfits hrst haccess
  rw [if_neg hends] at hfetch
  refine ⟨fun hcmd => by simp [step, hfetch, hcmd, fetchCommand], fun c hcmd => ?_⟩
  have hlenw : u.lenw = s.lenw := (hostAccess_edgeWrite haccess).lenw
  apply step_of_fetch_run
  rw [hfetch]
  simp only [fetchCommand, hcmd, hlenw, decode_commandWord c.scheme (len_lt_of_fits hfits hcmd)]

/-! ## Host writes -/

/-- An edge that reads no OBUF and writes IBUF does what the write does. -/
theorem edgeAccess_of_write (haddr : e.obufAddr = none) (hw : e.ibufWrite = some w) :
    edgeWrite e (edgeRead e s) = hostWriteIbuf w s := by
  simp only [edgeWrite, hw, edgeRead, haddr]

/-- A host write of a cell is refused while `BUSY = 1` (20_memory.md R40). -/
theorem hostWriteIbuf_of_busy (hcell : w.addr < s.maxLen) (hb : s.busy = true) :
    hostWriteIbuf w s = .error (.refused .ibufWriteWhileBusy) :=
  (if_pos hcell).trans (if_pos hb)

/-- A host write of a cell stores its symbol while `BUSY = 0` (40_mux_and_common.md R78). -/
theorem hostWriteIbuf_of_idle (hcell : w.addr < s.maxLen) (hb : s.busy = false) :
    hostWriteIbuf w s = .ok { s with ibuf := s.ibuf.write w.addr (Sym.ofCode w.data) } :=
  (if_pos hcell).trans (if_neg (Bool.eq_false_iff.1 hb))

/-! ## A START while `BUSY = 1` -/

/-- Every START row is dropped while `BUSY = 1` (70_reset_and_hazards.md R158). -/
theorem exec_of_busy (hb : s.busy = true) (hi : unitOf i = none) : exec i s = .next s := by
  obtain ⟨scheme, len, rfl⟩ := exists_startInstr_of_unitOf hi
  exact (exec_startInstr scheme len s).trans (start_of_busy hb)

/-- While `BUSY = 1`, an edge at which no step ends leads to the state after its accesses, whether or not
it carries a START. -/
theorem step_of_busyEdge (hedges : s.edges = e :: rest) (hfits : e.fits s.lenw = true)
    (hrst : e.rst = false) (haccess : edgeWrite e (edgeRead e { s with edges := rest }) = .ok u)
    (hb : u.busy = true) (hends : e.stepEnds = false) : step s = .next u := by
  obtain ⟨hnone, hsome⟩ := step_of_portsEdge hedges hfits hrst haccess (by simp [hends])
  cases hcmd : e.cmd with
  | none => exact hnone hcmd
  | some c =>
    obtain ⟨-, -, hunit⟩ := startInstr_encoding c.scheme c.len
    exact (hsome c hcmd).trans (exec_of_busy hb hunit)

/-- An edge whose values fit still fits without its START (20_memory.md R36). -/
theorem fits_withoutCmd {lenw : Nat} (h : e.fits lenw = true) :
    Edge.fits lenw { e with cmd := none } = true := by
  simp only [Edge.fits, Bool.and_eq_true] at h ⊢
  obtain ⟨⟨-, hwrite⟩, hread⟩ := h
  exact ⟨⟨rfl, hwrite⟩, hread⟩

/-- A running encoder does the same at two edges with the same accesses, whatever STARTs they carry. -/
theorem step_congr_of_busy (hb : s.busy = true)
    (hs : { s' with edges := rest } = { s with edges := rest })
    (hedges : s.edges = e :: rest) (hedges' : s'.edges = e' :: rest)
    (hfits : e.fits s.lenw = true) (hfits' : e'.fits s'.lenw = true) (hrst : e'.rst = e.rst)
    (hread : e'.obufAddr = e.obufAddr) (hwrite : e'.ibufWrite = e.ibufWrite)
    (hends : e'.stepEnds = e.stepEnds) : step s' = step s := by
  have hreads : edgeRead e' { s' with edges := rest } = edgeRead e { s with edges := rest } := by
    simp only [edgeRead, hread, hs]
  have hwrites : edgeWrite e' (edgeRead e' { s' with edges := rest }) =
      edgeWrite e (edgeRead e { s with edges := rest }) := by
    simp only [edgeWrite, hwrite, hreads]
  cases hr : e.rst with
  | true =>
    rw [step_of_resetEdge hedges hfits hr, step_of_resetEdge hedges' hfits' (hrst.trans hr), hreads]
  | false =>
    have hr' := hrst.trans hr
    cases haccess : edgeWrite e (edgeRead e { s with edges := rest }) with
    | error x =>
      simp only [step, fetch_of_edgeWrite_error hedges hfits hr haccess,
        fetch_of_edgeWrite_error hedges' hfits' hr' (hwrites.trans haccess)]
    | ok u =>
      obtain ⟨hub, -⟩ := (hostAccess_edgeWrite haccess).flags
      replace hub := hub.trans hb
      cases he : e.stepEnds with
      | true =>
        simp only [step, fetch_of_edge hedges hfits hr haccess,
          fetch_of_edge hedges' hfits' hr' (hwrites.trans haccess), hends, hub, he, and_self,
          if_true]
      | false =>
        rw [step_of_busyEdge hedges hfits hr haccess hub he,
          step_of_busyEdge hedges' hfits' hr' (hwrites.trans haccess) hub (hends.trans he)]

end

/-- Settles O17: the rows of each key are those of its scheme. -/
theorem selectedStepBelongsToScheme : Obligations.SelectedStepBelongsToScheme :=
  fun _ _ => unitOf_of_selectStep

/-- Settles O16: every step row goes through the mux, which discards it. -/
theorem unselectedUnitIsDiscarded : Obligations.UnselectedUnitIsDiscarded := by
  intro s i unit hi hunselected
  obtain ⟨u, -, hexec⟩ := exec_of_unitOf hi s
  exact hexec.trans (mux_discarded u hunselected)

/-- Settles O21: an idle block fetches nothing, and an empty edge carries no access and no START. -/
theorem quietEdgeChangesNothing : Obligations.QuietEdgeChangesNothing :=
  ⟨fun _ => step_idle, fun _ _ => step_of_accessEdge rfl rfl rfl rfl rfl⟩

/-- Settles O28: a write of a cell that exists is done or refused as `BUSY` says, before any START. -/
theorem hostWriteOfIbuf : Obligations.HostWriteOfIbuf := by
  intro s e rest w hedges hfits hrst haddr hw hcell
  have haccess := edgeAccess_of_write (s := { s with edges := rest }) haddr hw
  refine ⟨fun hb => ?_, fun hb => ?_⟩
  · have hfetch := fetch_of_edgeWrite_error hedges hfits hrst
      (haccess.trans (hostWriteIbuf_of_busy hcell hb))
    simp only [step, hfetch]
  · refine ⟨s.ibuf.write w.addr (Sym.ofCode w.data), Memory.read_write_same _ _ _,
      fun k hk => Memory.read_write_other _ _ hk.symm, ?_⟩
    exact step_of_portsEdge hedges hfits hrst (haccess.trans (hostWriteIbuf_of_idle hcell hb))
      fun hends => by simp [hb] at hends

/-- Settles O3: the START is dropped where it is executed, so its edge does the same without it. -/
theorem startWhileBusyIsDropped : Obligations.StartWhileBusyIsDropped := by
  intro s hb
  refine ⟨fun len i hi => exec_of_busy hb ?_, fun e rest hfits => ?_⟩
  · simp only [List.mem_cons, List.not_mem_nil, or_false] at hi
    rcases hi with rfl | rfl | rfl | rfl | rfl | rfl | rfl | rfl <;> rfl
  · exact step_congr_of_busy hb rfl rfl rfl (fits_withoutCmd hfits) hfits rfl rfl rfl rfl

end Sys2Proof.Machine
end

section
/-! The samples that a frame has still to compute: the functions of `Encode` (40_mux_and_common.md R82),
from the polarity and the balance that the symbols before have left, with no fuel in their equations. -/

namespace Sys2Proof.Machine

/-- The samples of the symbols `left`, where a frame of `scheme` stands at polarity `pol` and balance
`bal`. `schemeSamples_of_valid` ties it to `Encode`. -/
def samplesLeft (scheme : BitVec 3) (pol : Pol) (bal : Int) (left : List Sym) : List Level :=
  match scheme.toFin with
  | 0 => left.flatMap unipolarSamples
  | 1 => left.flatMap nrzLSamples
  | 2 => nrzISamples pol left
  | 3 => left.flatMap manchesterSamples
  | 4 => b8zsSamples left.length pol left
  | 5 => hdb3Samples left.length pol bal left
  | 6 => []
  | 7 => []

section
variable {scheme : BitVec 3} {p : Pol} {bal : Int} {b : Sym} {left : List Sym} {fuel fuel' n z : Nat}

/-- `Encode` computes the whole bit string from polarity +1 and balance 0 (10_state.md R21). -/
theorem schemeSamples_of_valid (hv : scheme.toNat < 6) (bits : List Sym) :
    schemeSamples scheme bits = some (samplesLeft scheme .plus 0 bits) := by
  rcases scheme_cases hv with rfl | rfl | rfl | rfl | rfl | rfl <;> rfl

/-- With no symbol left no sample is left. -/
theorem samplesLeft_nil (scheme : BitVec 3) (p : Pol) (bal : Int) :
    samplesLeft scheme p bal [] = [] := by
  obtain ⟨f, rfl⟩ : ∃ f : Fin 8, scheme = BitVec.ofFin f := ⟨scheme.toFin, rfl⟩
  match f with
  | 0 | 1 | 2 | 3 | 4 | 5 | 6 | 7 => rfl

/-- `n` symbols 0 come next when each of the next `n` symbols is 0. -/
theorem startsWithZeros_iff : startsWithZeros n left = true ↔ ∀ j < n, left[j]? = some .space := by
  simp only [startsWithZeros, Bool.and_eq_true, decide_eq_true_eq, List.all_eq_true, beq_iff_eq,
    List.mem_take_iff_getElem]
  constructor
  · rintro ⟨hlen, hall⟩ j hj
    rw [List.getElem?_eq_getElem (by omega), hall _ ⟨j, by omega, rfl⟩]
  · intro h
    have hlen : n ≤ left.length := by
      by_contra hshort
      simpa using h left.length (by omega)
    refine ⟨hlen, ?_⟩
    rintro _ ⟨j, hj, rfl⟩
    exact (List.getElem_eq_iff _).2 (h j (by omega))

/-! ## B8ZS -/

/-- Fuel beyond the number of symbols makes no difference. -/
theorem b8zsSamples_fuel (h : left.length ≤ fuel) (h' : left.length ≤ fuel') :
    b8zsSamples fuel p left = b8zsSamples fuel' p left := by
  induction fuel generalizing fuel' p left with
  | zero =>
    obtain rfl := List.length_eq_zero_iff.1 (Nat.le_zero.1 h)
    cases fuel' <;> rfl
  | succ fuel ih =>
    cases left with
    | nil => cases fuel' <;> rfl
    | cons b left =>
      simp only [List.length_cons] at h h'
      obtain ⟨fuel', rfl⟩ : ∃ k, fuel' = k + 1 := ⟨fuel' - 1, by omega⟩
      have hrest (q : Pol) : b8zsSamples fuel q left = b8zsSamples fuel' q left :=
        ih (by omega) (by omega)
      have hdrop (q : Pol) : b8zsSamples fuel q (left.drop 7) = b8zsSamples fuel' q (left.drop 7) :=
        ih (by simp; omega) (by simp; omega)
      simp only [b8zsSamples, hrest, hdrop]

/-- B8ZS from its next symbol on (43_b8zs.md R100): the window test first, then the symbol. -/
theorem samplesLeft_b8zs_cons :
    samplesLeft 4 p bal (b :: left) =
      if startsWithZeros 8 (b :: left) then
        dbl (b8zsPattern p) ++ samplesLeft 4 p.flip bal (left.drop 7)
      else match b with
        | .mark => held p.level ++ samplesLeft 4 p.flip bal left
        | .space => held .zero ++ samplesLeft 4 p bal left := by
  have hdrop : b8zsSamples left.length p.flip (left.drop 7) = samplesLeft 4 p.flip bal (left.drop 7) :=
    b8zsSamples_fuel (by simp) le_rfl
  rw [← hdrop]
  rfl

/-! ## HDB3 -/

/-- Fuel beyond the number of symbols makes no difference. -/
theorem hdb3Samples_fuel (h : left.length ≤ fuel) (h' : left.length ≤ fuel') :
    hdb3Samples fuel p bal left = hdb3Samples fuel' p bal left := by
  induction fuel generalizing fuel' p bal left with
  | zero =>
    obtain rfl := List.length_eq_zero_iff.1 (Nat.le_zero.1 h)
    cases fuel' <;> rfl
  | succ fuel ih =>
    cases left with
    | nil => cases fuel' <;> rfl
    | cons b left =>
      simp only [List.length_cons] at h h'
      obtain ⟨fuel', rfl⟩ : ∃ k, fuel' = k + 1 := ⟨fuel' - 1, by omega⟩
      have hrest (q : Pol) (c : Int) : hdb3Samples fuel q c left = hdb3Samples fuel' q c left :=
        ih (by omega) (by omega)
      have hdrop (q : Pol) (c : Int) :
          hdb3Samples fuel q c (left.drop 3) = hdb3Samples fuel' q c (left.drop 3) :=
        ih (by simp; omega) (by simp; omega)
      simp only [hdb3Samples, hrest, hdrop]

/-- HDB3 from its next symbol on (44_hdb3.md R121): four zeros are cut off first. -/
theorem samplesLeft_hdb3_cons :
    samplesLeft 5 p bal (b :: left) =
      if startsWithZeros 4 (b :: left) then
        if bal < 0 then
          dbl [.minus, .zero, .zero, .minus] ++ samplesLeft 5 .plus bal (left.drop 3)
        else
          dbl [.zero, .zero, .zero, p.flip.level] ++ samplesLeft 5 p.flip (bal - p.toInt) (left.drop 3)
      else match b with
        | .mark => held p.level ++ samplesLeft 5 p.flip (bal + p.toInt) left
        | .space => held .zero ++ samplesLeft 5 p bal left := by
  have hdrop (q : Pol) (c : Int) :
      hdb3Samples left.length q c (left.drop 3) = samplesLeft 5 q c (left.drop 3) :=
    hdb3Samples_fuel (by simp) le_rfl
  rw [← hdrop, ← hdrop]
  rfl

/-- Fewer than four zeros before a mark, or at the end, are plain zeros (44_hdb3.md R121). -/
theorem samplesLeft_hdb3_zeros (hz : z < 4) (hhead : left.head? ≠ some .space) :
    samplesLeft 5 p bal (List.replicate z .space ++ left) =
      List.replicate (2 * z) .zero ++ samplesLeft 5 p bal left := by
  induction z with
  | zero => rfl
  | succ z ih =>
    have hplain : ¬startsWithZeros 4 (Sym.space :: (List.replicate z .space ++ left)) = true := by
      intro h
      apply hhead
      simpa [List.getElem?_append, List.head?_eq_getElem?] using startsWithZeros_iff.1 h (z + 1) hz
    rw [List.replicate_succ, List.cons_append, samplesLeft_hdb3_cons, if_neg hplain, ih (by omega),
      show 2 * (z + 1) = 2 * z + 1 + 1 from rfl, List.replicate_succ, List.replicate_succ]
    rfl

/-- A fourth zero completes a substitution, whose form the balance decides (44_hdb3.md R113, R114). -/
theorem samplesLeft_hdb3_fourZeros :
    samplesLeft 5 p bal (List.replicate 3 .space ++ .space :: left) =
      if bal < 0 then
        dbl [.minus, .zero, .zero, .minus] ++ samplesLeft 5 .plus bal left
      else
        dbl [.zero, .zero, .zero, p.flip.level] ++ samplesLeft 5 p.flip (bal - p.toInt) left := by
  have hzeros : startsWithZeros 4 (Sym.space :: .space :: .space :: .space :: left) = true := by
    simp [startsWithZeros]
  exact samplesLeft_hdb3_cons.trans (if_pos hzeros)

end

end Sys2Proof.Machine
end

section
/-! The step machine computes `Encode` (40_mux_and_common.md R82): what every step of a frame keeps of
the sample list, and the whole frame. -/

namespace Sys2Proof.Machine

/-- The samples behind the scan position are those of the list (40_mux_and_common.md R81). -/
structure State.HoldsBehind (s : State) (written : List Level) : Prop where
  length : written.length = 2 * s.pos
  samples : holdsSamples s.obuf written

/-- In the frame of `bits` the sample list `y` is under way: a front of it is final, the zeros that
`ZCNT` counts are written behind that but may still be substituted (44_hdb3.md R120, R121), and what
follows the front is the samples of those zeros and of the symbols from the scan position on. -/
structure State.Computes (s : State) (bits : List Sym) (y : List Level) : Prop where
  zcnt_unused : s.scheme ≠ 5 → s.zcnt = 0
  under_way : ∃ front, s.HoldsBehind (front ++ List.replicate (2 * s.zcnt.toNat) .zero) ∧
    y = front ++ samplesLeft s.scheme s.pol s.bal
      (List.replicate s.zcnt.toNat .space ++ bits.drop s.pos)

section
variable {s : State} {bits : List Sym} {b : Sym} {i : Instr} {u : UnitOutput}
  {y front old : List Level}

/-- A step that writes from the end of `front` on replaces what stood there by its levels. -/
theorem State.HoldsBehind.committed (h : s.HoldsBehind (front ++ old)) (hadv : u.Advances s)
    (hcell : u.write.cell = front.length) :
    (s.committed u).HoldsBehind (front ++ u.write.levels) := by
  obtain ⟨hlength, hsamples⟩ := h
  have hreaches := hadv.reaches
  have hle := hadv.cell_le
  have hlength' : (front ++ u.write.levels).length = 2 * (s.pos + u.stride) := by
    rw [List.length_append]; omega
  refine ⟨hlength', fun k hk => ?_⟩
  rw [hadv.read_committed (hlength' ▸ hk), hcell, Int.toNat_natCast]
  split
  · next hlow =>
    rw [hsamples k (by omega), List.getElem?_append_left hlow, List.getElem?_append_left hlow]
  · next hlow => rw [List.getElem?_append_right (by omega)]

/-- The symbol at the scan position is the next one of the frame. -/
theorem State.RunsFrame.drop_pos (h : s.RunsFrame bits) (hread : readSymbol s s.pos = .ok b) :
    bits.drop s.pos = b :: bits.drop (s.pos + 1) := by
  rw [h.readSymbol_eq] at hread
  split at hread
  · next hp => cases hread; exact List.drop_eq_getElem_cons hp
  · cases hread

/-- `ZeroRun8(POS)` says that the next eight symbols of the frame are 0 (43_b8zs.md R101). -/
theorem State.RunsFrame.zeroRunAhead_iff (h : s.RunsFrame bits) :
    s.zeroRunAhead ↔ startsWithZeros 8 (bits.drop s.pos) = true := by
  simp only [startsWithZeros_iff, List.getElem?_drop, State.zeroRunAhead]
  constructor
  · rintro ⟨hfit, hz⟩ j hj
    rw [← h.symbols _ (by have := h.len; omega)]
    exact hz j hj
  · intro hz
    obtain ⟨hfit, -⟩ := List.getElem?_eq_some_iff.1 (hz 7 (by decide))
    have := h.len
    exact ⟨by omega, fun j hj => (h.symbols _ (by omega)).trans (hz j hj)⟩

/-- The step that B8ZS selects: the window test first, then the symbol (43_b8zs.md R100). -/
theorem State.RunsFrame.selectStep_b8zs (h : s.RunsFrame bits) (hs : s.scheme = 4)
    (hi : selectStep s = .ok i) : ∃ b, readSymbol s s.pos = .ok b ∧
      i = if startsWithZeros 8 (bits.drop s.pos) then .b8zsSubst else b8zsPlainStepOf b := by
  rcases selectStep_cases hi with ⟨b, -, hrow⟩ | ⟨-, hfit, w, hw, rfl⟩ | ⟨-, hshort, b, hread, rfl⟩
  · simp [hs] at hrow
  · refine ⟨w.getD 0 .space, (memRead_eq_ok hw).2 0 (by decide), ?_⟩
    simp only [window_zeros_iff hfit hw, h.zeroRunAhead_iff]
    rfl
  · refine ⟨b, hread, ?_⟩
    rw [if_neg fun hz => hshort (h.zeroRunAhead_iff.2 hz).1]
    rfl

/-- Outside HDB3 the output of the selected step stands at the scan position, and is what comes next of
the sample list. -/
theorem State.RunsFrame.samplesLeft_step (h : s.RunsFrame bits) (hs : s.scheme ≠ 5)
    (hi : selectStep s = .ok i) (hu : stepOutput i s = some u) :
    u.write.cell = 2 * s.pos ∧
      samplesLeft s.scheme s.pol s.bal (bits.drop s.pos) =
        u.write.levels ++ samplesLeft s.scheme u.pol u.bal (bits.drop (s.pos + u.stride)) := by
  by_cases hfour : s.scheme = 4
  · obtain ⟨b, hread, rfl⟩ := h.selectStep_b8zs hfour hi
    have hdrop := h.drop_pos hread
    rw [hfour]
    split at hu
    · next hz =>
      cases hu
      refine ⟨rfl, ?_⟩
      rw [hdrop] at hz ⊢
      rw [samplesLeft_b8zs_cons, if_pos hz, List.drop_drop]
      rfl
    · next hz =>
      rw [hdrop] at hz ⊢
      rw [samplesLeft_b8zs_cons, if_neg hz]
      cases b <;> cases hu <;> exact ⟨rfl, rfl⟩
  · rcases selectStep_cases hi with ⟨b, hread, hrow⟩ | ⟨hs', -⟩ | ⟨hs', -⟩
    · rw [h.drop_pos hread]
      rcases hrow with ⟨hs', rfl⟩ | ⟨hs', rfl⟩ | ⟨hs', rfl⟩ | ⟨hs', rfl⟩ | ⟨hs', -⟩
      on_goal 5 => exact absurd hs' hs
      all_goals rw [hs']; cases b <;> cases hu <;> exact ⟨rfl, rfl⟩
    · exact absurd hs' hfour
    · exact absurd hs' hfour

/-- A step that leaves no counted zero carries the list on, when its levels are what comes next. -/
theorem State.Computes.of_final (hz : u.zcnt = 0) (hadv : u.Advances s)
    (hbehind : s.HoldsBehind (front ++ old)) (hcell : u.write.cell = front.length)
    (hy : y = front ++ (u.write.levels ++
      samplesLeft s.scheme u.pol u.bal (bits.drop (s.pos + u.stride)))) :
    (s.committed u).Computes bits y := by
  refine ⟨fun _ => hz, front ++ u.write.levels, ?_, ?_⟩
  · simpa [hz] using hbehind.committed hadv hcell
  · simpa [hz] using hy

/-- A count below 3 is counted on without wrapping (44_hdb3.md R112). -/
theorem toNat_zcnt_succ : ∀ z : BitVec 2, z ≠ 3 → (z + 1).toNat = z.toNat + 1 := by decide

/-- A mark makes the counted zeros final, and its own samples with them (44_hdb3.md R111). -/
theorem State.Computes.committed_hdb3Mark (h : s.Computes bits y) (hs : s.scheme = 5)
    (hdrop : bits.drop s.pos = .mark :: bits.drop (s.pos + 1))
    (hu : stepOutput .hdb3Mark s = some u) (hadv : u.Advances s) : (s.committed u).Computes bits y := by
  obtain ⟨-, front, hbehind, hy⟩ := h
  rw [hs, hdrop, samplesLeft_hdb3_zeros s.zcnt.isLt (by simp), samplesLeft_hdb3_cons,
    if_neg (by simp [startsWithZeros]), ← List.append_assoc] at hy
  cases hu
  have hcell : (2 * s.pos : Int) = (front ++ List.replicate (2 * s.zcnt.toNat) Level.zero).length := by
    exact_mod_cast hbehind.length.symm
  refine .of_final rfl hadv (old := []) ?_ hcell (by rw [hs]; exact hy)
  rwa [List.append_nil]

/-- A counted zero writes two more zeros that may be substituted (44_hdb3.md R112). -/
theorem State.Computes.committed_hdb3Zero (h : s.Computes bits y) (hs : s.scheme = 5)
    (hdrop : bits.drop s.pos = .space :: bits.drop (s.pos + 1)) (hz : s.zcnt ≠ 3)
    (hu : stepOutput .hdb3Zero s = some u) (hadv : u.Advances s) : (s.committed u).Computes bits y := by
  obtain ⟨-, front, hbehind, hy⟩ := h
  cases hu
  have hcell : (2 * s.pos : Int) = (front ++ List.replicate (2 * s.zcnt.toNat) Level.zero).length := by
    exact_mod_cast hbehind.length.symm
  have hcount := toNat_zcnt_succ s.zcnt hz
  refine ⟨fun hne => absurd hs hne, front, ?_, ?_⟩
  · have hnext := State.HoldsBehind.committed (old := []) (by rwa [List.append_nil]) hadv hcell
    have hzeros : List.replicate (2 * (s.zcnt.toNat + 1)) Level.zero =
        List.replicate (2 * s.zcnt.toNat) .zero ++ [.zero, .zero] := List.replicate_append_replicate.symm
    simp only [State.committed_zcnt, hcount, hzeros, ← List.append_assoc]
    exact hnext
  · simp only [State.committed_zcnt, hcount, List.replicate_succ', List.append_assoc]
    rw [hdrop] at hy
    exact hy

/-- A substitution replaces the three counted zeros and the fourth by its block, which is final
(44_hdb3.md R113, R114). -/
theorem State.Computes.committed_hdb3Subst (h : s.Computes bits y) (hs : s.scheme = 5)
    (hdrop : bits.drop s.pos = .space :: bits.drop (s.pos + 1)) (hz : s.zcnt = 3)
    (hu : stepOutput (if s.bal < 0 then .hdb3SubstB00V else .hdb3Subst000V) s = some u)
    (hadv : u.Advances s) : (s.committed u).Computes bits y := by
  obtain ⟨-, front, hbehind, hy⟩ := h
  have hthree : s.zcnt.toNat = 3 := congrArg BitVec.toNat hz
  have hlength := hbehind.length
  rw [hthree, List.length_append, List.length_replicate] at hlength
  have hcell : (2 * (s.pos - 3) : Int) = front.length := by omega
  rw [hs, hdrop, hthree, samplesLeft_hdb3_fourZeros] at hy
  split at hu
  · next hbal =>
    rw [if_pos hbal] at hy
    have hv : b00vPulse s.bal = .minus := if_pos (by omega)
    have hkept : s.bal + Pol.minus.toInt - Pol.minus.toInt = s.bal := by omega
    simp only [stepOutput, hv, hkept] at hu
    cases hu
    exact .of_final rfl hadv hbehind hcell (by rw [hs]; exact hy)
  · next hbal =>
    rw [if_neg hbal] at hy
    cases hu
    exact .of_final rfl hadv hbehind hcell (by rw [hs]; exact hy)

/-- Every selected step carries the sample list on. -/
theorem State.Computes.committed (h : s.Computes bits y) (hframe : s.RunsFrame bits)
    (hi : selectStep s = .ok i) (hu : stepOutput i s = some u) (hadv : u.Advances s) :
    (s.committed u).Computes bits y := by
  by_cases hs : s.scheme = 5
  · obtain ⟨b, hread⟩ : ∃ b, readSymbol s s.pos = .ok b := by
      rw [hframe.readSymbol_eq, dif_pos (hframe.len ▸ hframe.pos_lt)]
      exact ⟨_, rfl⟩
    have hdrop := hframe.drop_pos hread
    obtain ⟨hp, hb⟩ := readSymbol_eq_ok.1 hread
    obtain rfl := Except.ok.inj ((selectStep_hdb3 hs hp hb).symm.trans hi)
    cases b with
    | mark => exact h.committed_hdb3Mark hs hdrop hu hadv
    | space =>
      by_cases hz : s.zcnt = 3
      · rw [hdb3StepOf, if_pos hz] at hu
        exact h.committed_hdb3Subst hs hdrop hz hu hadv
      · rw [hdb3StepOf, if_neg hz] at hu
        exact h.committed_hdb3Zero hs hdrop hz hu hadv
  · obtain ⟨hunused, front, hbehind, hy⟩ := h
    have hz := hunused hs
    obtain ⟨hcell, hleft⟩ := hframe.samplesLeft_step hs hi hu
    obtain ⟨hkept, -⟩ := unused_of_stepOutput (unitOf_of_selectStep hi) hu
    have hnone : s.zcnt.toNat = 0 := congrArg BitVec.toNat hz
    rw [hnone] at hbehind hy
    have hlength := hbehind.length
    rw [Nat.mul_zero, List.replicate_zero, List.append_nil] at hlength
    exact .of_final ((hkept hs).1.trans hz) hadv hbehind (by omega)
      (hy.trans (congrArg (front ++ ·) hleft))

/-- Where no symbol is left, OBUF holds the sample list. -/
theorem State.Computes.at_end (h : s.Computes bits y) (hend : s.pos = bits.length) :
    y.length = 2 * bits.length ∧ holdsSamples s.obuf y := by
  obtain ⟨hunused, front, hbehind, hy⟩ := h
  have hzeros : samplesLeft s.scheme s.pol s.bal (List.replicate s.zcnt.toNat .space ++ []) =
      List.replicate (2 * s.zcnt.toNat) .zero := by
    by_cases hs : s.scheme = 5
    · rw [hs, samplesLeft_hdb3_zeros s.zcnt.isLt (by simp), samplesLeft_nil, List.append_nil]
    · rw [hunused hs]
      exact samplesLeft_nil _ _ _
  rw [hend, List.drop_length, hzeros] at hy
  obtain ⟨hlength, hsamples⟩ := hy ▸ hbehind
  exact ⟨hend ▸ hlength, hsamples⟩

/-- A frame begins with the whole sample list before it (10_state.md R21). -/
theorem State.Computes.begun (s : State) (scheme : BitVec 3) (bits : List Sym) :
    (s.begun scheme bits).Computes bits (samplesLeft scheme .plus 0 bits) :=
  ⟨fun _ => rfl, [], ⟨rfl, fun k hk => absurd hk (Nat.not_lt_zero k)⟩, rfl⟩

/-- From an idle state that holds the bit string, the frame computes the sample list of its scheme. -/
theorem exists_runsToDone_samples {scheme : BitVec 3} (hv : scheme.toNat < 6)
    (h : s.readyFor scheme bits) : ∃ k t, s.runsToDone k t bits.length ∧
      (samplesLeft scheme .plus 0 bits).length = 2 * bits.length ∧
      holdsSamples t.obuf (samplesLeft scheme .plus 0 bits) := by
  obtain ⟨hstep, hframe⟩ := step_of_readyFor hv h
  obtain ⟨k, t, hrun, ht⟩ := hframe.exists_runsToDone
    (P := fun _ r => r.Computes bits (samplesLeft scheme .plus 0 bits))
    (fun _ _ _ _ hr hj hi hu hadv => hj.committed hr hi hu hadv) (j := 0) (.begun s scheme bits)
  exact ⟨k + 1, t, runsToDone_succ hstep ⟨hframe.busy, hframe.done⟩ hrun,
    ht.at_end (pos_of_runsToDone hrun)⟩

/-! ## `Encode` where it is no list, and of a concatenation -/

/-- A START of an invalid scheme enters InvalidSchemeId, whatever its length (60_exceptions.md R131). -/
theorem start_of_invalid {c : BitVec 3} {n : Nat} (hb : s.busy = false) (hc : 6 ≤ c.toNat) :
    start c n s = .next (s.raiseInvalidSchemeId c n) := by
  have hvalid : validScheme c = false := by simpa [validScheme] using hc
  simp [start, hb, hvalid]

/-- A START of a valid scheme with no symbols is refused (60_exceptions.md R132). -/
theorem start_of_empty {c : BitVec 3} (hb : s.busy = false) (hv : c.toNat < 6) :
    start c 0 s = .refused .emptyFrame := by
  have hvalid : validScheme c = true := by simpa [validScheme] using hv
  simp [start, hb, hvalid]

/-- While `DONE = 0` the host can read no sample (20_memory.md R41). -/
theorem sampleAt_of_not_done (hd : s.done = false) (k : Nat) : s.sampleAt k = none := by
  simp [State.sampleAt, hd]

/-- `Encode` is a list exactly for a valid scheme and a non-empty bit string. -/
theorem exists_encodeReference_samples {scheme : BitVec 3} :
    (∃ y, encodeReference scheme bits = .samples y) ↔ scheme.toNat < 6 ∧ bits ≠ [] := by
  simp only [encodeReference_samples, exists_and_left, ← Option.isSome_iff_exists,
    schemeSamples_isSome, and_comm]

/-- `Encode` is InvalidSchemeId exactly for the codes 6 and 7. -/
theorem encodeReference_invalid_iff {scheme : BitVec 3} :
    encodeReference scheme bits = .invalidSchemeId ↔ 6 ≤ scheme.toNat := by
  rw [encodeReference_invalid, ← Option.not_isSome_iff_eq_none, schemeSamples_isSome, Nat.not_lt]

/-- Where a scheme maps symbol by symbol, `Encode` distributes over concatenation. -/
theorem encodeReference_append {scheme : BitVec 3} {f : Sym → List Level} {a b : List Sym}
    {y z : List Level} (hmap : ∀ bits, schemeSamples scheme bits = some (bits.flatMap f))
    (ha : encodeReference scheme a = .samples y) (hb : encodeReference scheme b = .samples z) :
    encodeReference scheme (a ++ b) = .samples (y ++ z) := by
  simp only [encodeReference_samples, hmap, Option.some.injEq] at ha hb ⊢
  obtain ⟨hne, rfl⟩ := ha
  obtain ⟨-, rfl⟩ := hb
  exact ⟨List.append_ne_nil_of_left_ne_nil hne b, List.flatMap_append⟩

end

/-- Settles O53: a frame computes the sample list of its scheme, the other two cases are those of START,
and the three schemes without memory map symbol by symbol. -/
theorem encodeIsTheFrame : Obligations.EncodeIsTheFrame := by
  refine ⟨fun s scheme bits y hready hy => ?_, fun s scheme bits hb hlen hedges hinvalid => ?_,
    fun s scheme bits why hb hedges hrefused => ?_,
    fun scheme bits => ⟨exists_encodeReference_samples, encodeReference_invalid_iff⟩,
    fun scheme a b y z hscheme ha hb => ?_⟩
  · obtain ⟨hv, -⟩ := exists_encodeReference_samples.1 ⟨y, hy⟩
    obtain ⟨-, hsamples⟩ := encodeReference_samples.1 hy
    obtain rfl := Option.some.inj ((schemeSamples_of_valid hv bits).symm.trans hsamples)
    obtain ⟨k, t, hrun, hlength, hobuf⟩ := exists_runsToDone_samples hv hready
    exact ⟨hlength, k, t, hrun,
      fun j hj => (sampleAt_of_runsToDone hrun hj).trans (hobuf j (hlength ▸ hj))⟩
  · have hstart := start_of_invalid (s := { s with edges := [] }) (n := bits.length) hb
      (encodeReference_invalid_iff.1 hinvalid)
    exact ⟨_, (step_startEdge hb hedges hlen).trans hstart, rfl, rfl, rfl, rfl,
      sampleAt_of_not_done rfl⟩
  · obtain ⟨hvalid, rfl, rfl⟩ := encodeReference_refused.1 hrefused
    exact (step_startEdge hb hedges (Nat.two_pow_pos _)).trans
      (start_of_empty hb ((schemeSamples_isSome scheme []).1 hvalid))
  · rcases hscheme with rfl | rfl | rfl
    · exact encodeReference_append (fun _ => rfl) ha hb
    · exact encodeReference_append (fun _ => rfl) ha hb
    · exact encodeReference_append (fun _ => rfl) ha hb

end Sys2Proof.Machine
end

section
/-! The steps of the one-symbol schemes (41_unipolar_nrz.md, 42_manchester.md): the symbol at `POS`
selects the step, which writes the two samples of that bit-time. -/

namespace Sys2Proof.Machine

section
variable {s : State} {unit : BitVec 3} {i : Instr} {b : Sym} {l l' : Level} {p : Pol}

/-- The schemes 0 to 3 are selected by the symbol at `POS` alone (30_encoding.md R59). -/
theorem stepKey_of_symbolScheme (h : s.scheme.toNat < 4) : stepKey s = symbolKey s := by
  have hcases : ∀ c : BitVec 3, c.toNat < 4 → c = 0 ∨ c = 1 ∨ c = 2 ∨ c = 3 := by decide
  rcases hcases _ h with hs | hs | hs | hs <;> simp [stepKey, hs]

/-- In the schemes 0 to 3 the row of the symbol at `POS` is selected. -/
theorem selectStep_of_symbol (hunit : unit.toNat < 4) (hs : s.scheme = unit) (hp : s.pos < s.len)
    (hread : s.ibuf.read s.pos = some b)
    (hrow : decodeStep unit (BitVec.ofNat 9 b.code.toNat) = .ok i) : selectStep s = .ok i := by
  subst hs
  exact selectStep_of_key ((stepKey_of_symbolScheme hunit).trans (symbolKey_of_read hp hread)) hrow

/-- What a row of the schemes 0 to 3 does that writes the pair `l`, `l'` at the scan position and leaves
`p` in `POL`. `EmitHeld` is the case `l' = l` (40_mux_and_common.md R74, R75). -/
theorem symbolStep (h : s.inFrame unit) (hunit : unit.toNat < 4)
    (hrow : decodeStep unit (BitVec.ofNat 9 b.code.toNat) = .ok i)
    (hexec : exec i s = mux unit { s.plainOutput (emitPair s.pos l l') with pol := p } s) :
    ∃ t, exec i s = .next t ∧ (s.atSymbol b → step s = .next t) ∧
      t.obuf.read (2 * s.pos) = some l ∧ t.obuf.read (2 * s.pos + 1) = some l' ∧
      t.pol = p ∧ t.zcnt = s.zcnt ∧ t.bal = s.bal ∧
      s.stepFrame t 1 (2 * s.pos) (2 * s.pos + 2) := by
  have ⟨hbusy, hs, hp⟩ := h
  obtain ⟨hmux, hframe, hcells⟩ := mux_inFrame
    (u := { s.plainOutput (emitPair s.pos l l') with pol := p }) h (c := 2 * s.pos) rfl rfl
    (show 2 * s.pos + 2 ≤ 2 * s.len by omega)
  have hnext := hexec.trans hmux
  exact ⟨_, hnext, fun ⟨hedges, hread⟩ => (step_of_selected hedges hbusy
      (selectStep_of_symbol hunit hs hp hread hrow)).trans hnext,
    hcells 0 Nat.two_pos, hcells 1 Nat.one_lt_two, rfl, rfl, rfl, hframe⟩

end

/-- Settles O5: both rows write a pair at the scan position and keep `POL`. -/
theorem unipolarStep : Obligations.UnipolarStep := by
  intro s h
  simp only [List.forall_mem_cons]
  exact ⟨symbolStep h (by decide) (decodeStep_symbol .mark).1 rfl,
    symbolStep h (by decide) (decodeStep_symbol .space).1 rfl, by simp⟩

/-- Settles O6: both rows write a pair at the scan position and keep `POL`. -/
theorem nrzLStep : Obligations.NrzLStep := by
  intro s h
  simp only [List.forall_mem_cons]
  exact ⟨symbolStep h (by decide) (decodeStep_symbol .mark).2.1 rfl,
    symbolStep h (by decide) (decodeStep_symbol .space).2.1 rfl, by simp⟩

/-- Settles O7: the level that a row writes is that of the `POL` it leaves. -/
theorem nrzIStep : Obligations.NrzIStep := by
  intro s h
  simp only [List.forall_mem_cons]
  exact ⟨symbolStep h (by decide) (decodeStep_symbol .mark).2.2.1 rfl,
    symbolStep h (by decide) (decodeStep_symbol .space).2.2.1 rfl, by simp⟩

end Sys2Proof.Machine
end

section
/-! Whole frames in which every step consumes one symbol, and the frames of UNIPOLAR, NRZ-L, MANCHESTER
and NRZ-I (41_unipolar_nrz.md R88, R89; 42_manchester.md R96). -/

namespace Sys2Proof.Machine

section
variable {s t : State} {scheme : BitVec 3} {bits : List Sym} {b : Sym} {i : Instr} {u : UnitOutput}
  {n : Nat}

/-- A frame of any scheme but B8ZS takes one step per symbol after its START, and what each of these
steps carries on holds at `DONE`. -/
theorem runsToDone_of_readyFor {P : State → Prop} (hv : scheme.toNat < 6) (hne : scheme ≠ 4)
    (h : s.readyFor scheme bits) (hbegun : P (s.begun scheme bits))
    (carried : ∀ r i u, r.RunsFrame bits → r.scheme = scheme → P r → selectStep r = .ok i →
      stepOutput i r = some u → u.Advances r → P (r.committed u)) :
    ∃ t, s.runsToDone (1 + bits.length) t bits.length ∧ P t := by
  obtain ⟨hstep, hframe⟩ := step_of_readyFor hv h
  obtain ⟨k, t, hrun, hahead, ht⟩ := hframe.exists_runsToDone
    (P := fun j r => (s.begun scheme bits).StepsAhead j r ∧ P r)
    (fun _ r i u hr ⟨hj, hp⟩ hi hu hadv =>
      ⟨hj.committed hi hu, carried r i u hr hj.scheme hp hi hu hadv⟩)
    (j := 0) ⟨⟨rfl, le_rfl, le_rfl, fun _ => rfl⟩, hbegun⟩
  have hk : t.pos = 0 + (0 + k) := hahead.exact_of_ne hne
  obtain rfl : k = bits.length := by have := pos_of_runsToDone hrun; omega
  refine ⟨t, ?_, ht⟩
  rw [Nat.add_comm]
  exact runsToDone_succ hstep ⟨hframe.busy, hframe.done⟩ hrun

/-- Such a frame ends with the sample list of its scheme in OBUF (40_mux_and_common.md R82), and with
whatever else its steps carry on. -/
theorem runsToDone_samples {P : State → Prop} (hv : scheme.toNat < 6) (hne : scheme ≠ 4)
    (h : s.readyFor scheme bits) (hbegun : P (s.begun scheme bits))
    (carried : ∀ r i u, r.RunsFrame bits → r.scheme = scheme → P r → selectStep r = .ok i →
      stepOutput i r = some u → P (r.committed u)) :
    ∃ t, s.runsToDone (1 + bits.length) t bits.length ∧
      (samplesLeft scheme .plus 0 bits).length = 2 * bits.length ∧
      holdsSamples t.obuf (samplesLeft scheme .plus 0 bits) ∧ P t := by
  obtain ⟨t, hrun, hcomputes, ht⟩ := runsToDone_of_readyFor
    (P := fun r => r.Computes bits (samplesLeft scheme .plus 0 bits) ∧ P r)
    hv hne h ⟨.begun s scheme bits, hbegun⟩
    (fun r i u hr hs ⟨hc, hp⟩ hi hu hadv =>
      ⟨hc.committed hr hi hu hadv, carried r i u hr hs hp hi hu⟩)
  obtain ⟨hlength, hsamples⟩ := hcomputes.at_end (pos_of_runsToDone hrun)
  exact ⟨t, hrun, hlength, hsamples, ht⟩

/-- The three schemes without memory are among the one-symbol schemes, and their sample list is a map of
the symbols (41_unipolar_nrz.md R88, 42_manchester.md R96). -/
theorem samplesLeft_memoryless {f : Sym → List Level}
    (hf : (scheme, f) = (0, unipolarSamples) ∨ (scheme, f) = (1, nrzLSamples) ∨
      (scheme, f) = (3, manchesterSamples)) (p : Pol) (bal : Int) (left : List Sym) :
    scheme.toNat < 4 ∧ samplesLeft scheme p bal left = left.flatMap f := by
  simp only [Prod.mk.injEq] at hf
  rcases hf with ⟨rfl, rfl⟩ | ⟨rfl, rfl⟩ | ⟨rfl, rfl⟩ <;> exact ⟨by decide, rfl⟩

/-! ## NRZ-I: the polarity is the parity of the marks -/

/-- One more flip turns the polarity over. -/
theorem polAfterFlips_succ (n : Nat) : polAfterFlips (n + 1) = (polAfterFlips n).flip := by
  rcases Nat.mod_two_eq_zero_or_one n with h | h <;> simp [polAfterFlips, h, Nat.add_mod, Pol.flip]

/-- The first symbol counts as a mark or not, whatever follows. -/
theorem markCount_cons (b : Sym) (left : List Sym) :
    markCount (b :: left) = markCount [b] + markCount left :=
  List.count_append (l₁ := [b])

/-- The marks up to a symbol are those before it, and it. -/
theorem markCount_take_succ (hb : bits[n]? = some b) :
    markCount (bits.take (n + 1)) = markCount (bits.take n) + markCount [b] := by
  rw [List.take_add_one, hb]
  exact List.count_append

/-- NRZ-I holds the level of the next symbol, and goes on from there (41_unipolar_nrz.md R87). -/
theorem nrzISamples_cons (n : Nat) (b : Sym) (left : List Sym) :
    nrzISamples (polAfterFlips n) (b :: left) =
      held (polAfterFlips (n + markCount [b])).level ++
        nrzISamples (polAfterFlips (n + markCount [b])) left := by
  cases b with
  | mark => rw [show markCount [.mark] = 1 from rfl, polAfterFlips_succ]; rfl
  | space => rfl

/-- Both samples of bit-time `j` are the level of the parity of the marks so far, counted on from `n`
(41_unipolar_nrz.md R89). -/
theorem nrzISamples_getElem? {j k : Nat} (hj : j < bits.length) (hk : k < 2) :
    (nrzISamples (polAfterFlips n) bits)[2 * j + k]? =
      some (polAfterFlips (n + markCount (bits.take (j + 1)))).level := by
  induction bits generalizing n j with
  | nil => exact absurd hj (Nat.not_lt_zero j)
  | cons b left ih =>
    rw [nrzISamples_cons, List.take_succ_cons, markCount_cons b (left.take j), ← Nat.add_assoc]
    cases j with
    | zero => interval_cases k <;> rfl
    | succ j =>
      rw [show 2 * (j + 1) + k = (2 * j + k) + 1 + 1 by omega]
      exact ih (Nat.lt_of_succ_lt_succ hj)

/-- The step that NRZ-I selects counts its symbol into the parity (41_unipolar_nrz.md R87). -/
theorem State.RunsFrame.pol_nrzI (h : s.RunsFrame bits) (hs : s.scheme = 2)
    (hi : selectStep s = .ok i) (hu : stepOutput i s = some u)
    (hpol : s.pol = polAfterFlips (markCount (bits.take s.pos))) :
    u.pol = polAfterFlips (markCount (bits.take (s.pos + u.stride))) := by
  obtain ⟨b, hb⟩ : ∃ b, bits[s.pos]? = some b := ⟨_, List.getElem?_eq_getElem (h.len ▸ h.pos_lt)⟩
  have hread : s.ibuf.read s.pos = some b := (h.symbols s.pos (h.len ▸ h.pos_lt)).trans hb
  obtain rfl := Except.ok.inj (hi.symm.trans (selectStep_of_symbol (by decide) hs h.pos_lt hread
    (decodeStep_symbol b).2.2.1))
  have hcount := markCount_take_succ hb
  cases b with
  | mark =>
    cases hu
    calc s.pol.flip = (polAfterFlips (markCount (bits.take s.pos))).flip := congrArg _ hpol
      _ = polAfterFlips (markCount (bits.take s.pos) + 1) := (polAfterFlips_succ _).symm
      _ = polAfterFlips (markCount (bits.take (s.pos + 1))) := congrArg _ hcount.symm
  | space =>
    cases hu
    exact hpol.trans (congrArg _ hcount.symm)

end

/-- Settles O45: the sample list of these schemes is a map, and each step consumes one symbol. -/
theorem memorylessFrames : Obligations.MemorylessFrames := by
  intro s scheme f bits hf h
  obtain ⟨hv, hmap⟩ := samplesLeft_memoryless hf .plus 0 bits
  have hne : scheme ≠ 4 := by rintro rfl; exact absurd hv (by decide)
  obtain ⟨t, hrun, -, hsamples, -⟩ := runsToDone_samples (P := fun _ => True) (by omega) hne h trivial
    (fun _ _ _ _ _ _ _ _ => trivial)
  exact ⟨t, hrun, hmap ▸ hsamples⟩

/-- Settles O46: the sample list in closed form, and the parity that each step keeps in `POL`. -/
theorem nrzIFrame : Obligations.NrzIFrame := by
  intro s bits h
  obtain ⟨t, hrun, hlength, hsamples, hpol⟩ := runsToDone_samples
    (P := fun r => r.pol = polAfterFlips (markCount (bits.take r.pos))) (by decide) (by decide) h rfl
    (fun r i u hr hs hp hi hu => hr.pol_nrzI hs hi hu hp)
  rw [pos_of_runsToDone hrun, List.take_length] at hpol
  have hcell {j k : Nat} (hj : j < bits.length) (hk : k < 2) : t.obuf.read (2 * j + k) =
      some (polAfterFlips (markCount (bits.take (j + 1)))).level := by
    rw [hsamples _ (by omega), ← Nat.zero_add (markCount _)]
    exact nrzISamples_getElem? (n := 0) hj hk
  exact ⟨t, hrun, fun j hj => ⟨hcell hj Nat.two_pos, hcell hj Nat.one_lt_two⟩, hpol⟩

end Sys2Proof.Machine
end

section
/-! MANCHESTER (42_manchester.md): its two rows, and where the level of a frame changes (R95, R97). -/

namespace Sys2Proof.Machine

/-- Settles O8: both rows write a pair at the scan position and keep `POL`. -/
theorem manchesterStep : Obligations.ManchesterStep := by
  intro s h
  simp only [List.forall_mem_cons]
  exact ⟨symbolStep h (by decide) (decodeStep_symbol .mark).2.2.2 rfl,
    symbolStep h (by decide) (decodeStep_symbol .space).2.2.2 rfl, by simp⟩

/-- The sign of the first sample of a MANCHESTER bit-time; `manchesterSamples_eq` ties it to the
samples. -/
def manchesterFirst : Sym → Pol
  | .mark => .plus
  | .space => .minus

/-- A bit-time is its first level and then the opposite one (42_manchester.md R95). -/
theorem manchesterSamples_eq (b : Sym) :
    manchesterSamples b = [(manchesterFirst b).level, (manchesterFirst b).flip.level] := by
  cases b <;> rfl

/-- The second level of one bit-time differs from the first of another exactly for equal symbols. -/
theorem manchester_level_ne_iff (b b' : Sym) :
    (manchesterFirst b).flip.level ≠ (manchesterFirst b').level ↔ b = b' := by
  cases b <;> cases b' <;> decide

/-- Bit-time `j` of a MANCHESTER sample list is that of symbol `j`. -/
theorem flatMap_manchesterSamples_getElem? {bits : List Sym} {j : Nat} {b : Sym}
    (hb : bits[j]? = some b) :
    (bits.flatMap manchesterSamples)[2 * j]? = some (manchesterFirst b).level ∧
      (bits.flatMap manchesterSamples)[2 * j + 1]? = some (manchesterFirst b).flip.level := by
  induction bits generalizing j with
  | nil => cases hb
  | cons c left ih =>
    rw [List.flatMap_cons, manchesterSamples_eq c]
    cases j with
    | zero => cases hb; exact ⟨rfl, rfl⟩
    | succ j => exact ih hb

/-- A buffer that holds a sample list reads as each sample that the list has. -/
theorem read_of_holdsSamples {m : Memory Level} {samples : List Level} {k : Nat} {l : Level}
    (h : holdsSamples m samples) (hl : samples[k]? = some l) : m.read k = some l :=
  (h k (List.getElem?_eq_some_iff.1 hl).1).trans hl

/-- Settles O47: the frame holds the map of its symbols (O45), whose bit-times are pairs of opposite
levels that start with the sign of their symbol. -/
theorem manchesterTransitions : Obligations.ManchesterTransitions := by
  intro s bits h
  obtain ⟨t, hrun, hsamples⟩ := memorylessFrames s 3 manchesterSamples bits (.inr (.inr rfl)) h
  have cells {j : Nat} (hj : j < bits.length) :
      t.obuf.read (2 * j) = some (manchesterFirst bits[j]).level ∧
        t.obuf.read (2 * j + 1) = some (manchesterFirst bits[j]).flip.level := by
    obtain ⟨hfirst, hsecond⟩ :=
      flatMap_manchesterSamples_getElem? (List.getElem?_eq_getElem hj)
    exact ⟨read_of_holdsSamples hsamples hfirst, read_of_holdsSamples hsamples hsecond⟩
  refine ⟨t, hrun, fun i hi => ⟨_, cells hi⟩, fun i hi => ?_⟩
  have hi' : i < bits.length := Nat.lt_of_succ_lt hi
  have hnext : t.obuf.read (2 * i + 2) = some (manchesterFirst bits[i + 1]).level := (cells hi).1
  rw [(cells hi').2, hnext, List.getElem?_eq_getElem hi', List.getElem?_eq_getElem hi,
    ne_eq, Option.some_inj, Option.some_inj]
  exact manchester_level_ne_iff bits[i] bits[i + 1]

end Sys2Proof.Machine
end

section
/-! The steps of B8ZS (43_b8zs.md R101 to R105): which row is selected, and the samples it writes. -/

namespace Sys2Proof.Machine

section
variable {s : State} {b : Sym} {l : Level} {p : Pol}

/-- With fewer than eight symbols left no window is read, and the symbol at `POS` decides (43_b8zs.md
R101, R105). -/
theorem selectStep_b8zs_tail (hs : s.scheme = 4) (hp : s.pos < s.len) (htail : s.len < s.pos + 8)
    (hb : s.ibuf.read s.pos = some b) : selectStep s = .ok (b8zsPlainStepOf b) := by
  have hfit : windowFits s = false := by simpa [windowFits] using htail
  have hkey : stepKey s = .ok (BitVec.ofNat 9 (128 * b.code.toNat)) := by
    simp [stepKey, hs, b8zsKey, hfit, readSymbol_eq_ok.2 ⟨hp, hb⟩]
  have hrow : decodeStep 4 (BitVec.ofNat 9 (128 * b.code.toNat)) = .ok (b8zsPlainStepOf b) := by
    rw [decodeStep_b8zs]
    cases b <;> rfl
  exact selectStep_of_key hkey (hs ▸ hrow)

/-- Where `ZeroRun8(POS)` fails, with its window read or not, the symbol at `POS` decides (43_b8zs.md
R100). -/
theorem selectStep_b8zs_plain (h : s.inFrame 4) (hb : s.ibuf.read s.pos = some b)
    (hw : s.windowWritten) (hz : ¬s.zeroRunAhead) : selectStep s = .ok (b8zsPlainStepOf b) := by
  obtain ⟨-, hs, hp⟩ := h
  rcases Nat.lt_or_ge s.len (s.pos + 8) with htail | hfit
  · exact selectStep_b8zs_tail hs hp htail hb
  · exact (selectStep_b8zs_window hs hfit hb hw).2 hz

/-- `ZeroRun8(POS)` selects the substitution (43_b8zs.md R102). -/
theorem selectStep_b8zs_subst (hs : s.scheme = 4) (hz : s.zeroRunAhead) :
    selectStep s = .ok .b8zsSubst := by
  have ⟨hfit, hzeros⟩ := hz
  have hw : s.windowWritten := fun _ j hj => by simp [hzeros j hj]
  exact (selectStep_b8zs_window hs hfit (hzeros 0 (by decide)) hw).1 hz

/-- A window that begins with a mark is not all zeros (43_b8zs.md R101). -/
theorem not_zeroRunAhead_of_mark (hb : s.ibuf.read s.pos = some .mark) : ¬s.zeroRunAhead := by
  rintro ⟨-, hzeros⟩
  have hzero : s.ibuf.read s.pos = some .space := hzeros 0 (by decide)
  simp [hb] at hzero

/-- What the plain row of the symbol `b` does, which holds the level `l` and leaves `p` in `POL`. -/
theorem b8zsPlainStep (h : s.inFrame 4)
    (hexec : exec (b8zsPlainStepOf b) s =
      mux 4 { s.plainOutput (emitHeld s.pos l) with pol := p } s) :
    ∃ t, exec (b8zsPlainStepOf b) s = .next t ∧
      (s.atSymbol b → s.windowWritten → ¬s.zeroRunAhead → step s = .next t) ∧
      t.obuf.read (2 * s.pos) = some l ∧ t.obuf.read (2 * s.pos + 1) = some l ∧
      t.pol = p ∧ t.zcnt = s.zcnt ∧ t.bal = s.bal ∧
      s.stepFrame t 1 (2 * s.pos) (2 * s.pos + 2) := by
  have ⟨hbusy, _, hp⟩ := h
  obtain ⟨hmux, hframe, hcells⟩ := mux_inFrame
    (u := { s.plainOutput (emitHeld s.pos l) with pol := p }) h (c := 2 * s.pos) rfl rfl
    (show 2 * s.pos + 2 ≤ 2 * s.len by omega)
  have hnext := hexec.trans hmux
  exact ⟨_, hnext, fun ⟨hedges, hread⟩ hw hz => (step_of_selected hedges hbusy
      (selectStep_b8zs_plain h hread hw hz)).trans hnext,
    hcells 0 Nat.two_pos, hcells 1 Nat.one_lt_two, rfl, rfl, rfl, hframe⟩

/-- The sixteen samples of a block, cell by cell (43_b8zs.md R102). -/
theorem dbl_b8zsPattern_getElem? {k : Nat} (hk : k < 16) :
    (dbl (b8zsPattern p))[k]? = some (if k = 6 ∨ k = 7 then p.level
      else if k = 14 ∨ k = 15 then p.flip.level else .zero) := by
  interval_cases k <;> rfl

end

/-- Settles O19: no window is read there, so that the symbol at `POS` is the whole key. -/
theorem b8zsTailIsPlain : Obligations.B8zsTailIsPlain := by
  intro s b hs hp htail hb
  rw [selectStep_b8zs_tail hs hp htail hb]
  cases b <;> rfl

/-- Settles O9: the block fits into the frame, and is read back cell by cell. -/
theorem b8zsSubstitution : Obligations.B8zsSubstitution := by
  intro s h hfit
  have ⟨hbusy, hs, _⟩ := h
  obtain ⟨hmux, hframe, hcells⟩ := mux_inFrame
    (u := { s.plainOutput (emitBlock s.pos (b8zsPattern s.pol)) with pol := s.pol.flip, stride := 8 })
    h (c := 2 * s.pos) rfl rfl (show 2 * s.pos + 16 ≤ 2 * s.len by omega)
  exact ⟨_, hmux, fun hedges hz => (step_of_selected hedges hbusy
      (selectStep_b8zs_subst hs hz)).trans hmux,
    fun k hk => (hcells k hk).trans (dbl_b8zsPattern_getElem? hk), rfl, rfl, rfl, hframe⟩

/-- Settles O10: the plain row of a mark, which no all-zero window can begin with. -/
theorem b8zsMarkStep : Obligations.B8zsMarkStep := by
  intro s h
  obtain ⟨t, hexec, hstep, hsamples⟩ :=
    b8zsPlainStep (b := .mark) (l := s.pol.level) (p := s.pol.flip) h rfl
  exact ⟨t, hexec, fun hat hw => hstep hat hw (not_zeroRunAhead_of_mark hat.2), hsamples⟩

/-- Settles O11: the plain row of a zero keeps `POL`. -/
theorem b8zsZeroStep : Obligations.B8zsZeroStep :=
  fun _ h => b8zsPlainStep (b := .space) h rfl

end Sys2Proof.Machine
end

section
/-! Whole B8ZS frames (43_b8zs.md R106, R108): the samples, and the blocks and marks that fix the number
of steps and the final polarity. -/

namespace Sys2Proof.Machine

/-- The blocks of the symbols `left` of a B8ZS frame, with all the fuel they need. -/
def blocksLeft (left : List Sym) : Nat := b8zsBlocks left.length left

/-- The scan of a B8ZS frame of `bits` after `j` of its steps: a block consumes seven symbols more than a
step without one, and each block and each mark so far has flipped `POL` once (43_b8zs.md R108). -/
structure State.ScansB8zs (s : State) (bits : List Sym) (j : Nat) : Prop where
  scheme : s.scheme = 4
  steps : s.pos + 7 * blocksLeft (bits.drop s.pos) = j + 7 * blocksLeft bits
  flips : ∃ n, s.pol = polAfterFlips n ∧
    n + (blocksLeft (bits.drop s.pos) + markCount (bits.drop s.pos)) =
      blocksLeft bits + markCount bits

section
variable {s : State} {bits left : List Sym} {b : Sym} {i : Instr} {u : UnitOutput}
  {fuel fuel' n j : Nat}

/-- Fuel beyond the number of symbols makes no difference. -/
theorem b8zsBlocks_fuel (h : left.length ≤ fuel) (h' : left.length ≤ fuel') :
    b8zsBlocks fuel left = b8zsBlocks fuel' left := by
  induction fuel generalizing fuel' left with
  | zero =>
    obtain rfl := List.length_eq_zero_iff.1 (Nat.le_zero.1 h)
    cases fuel' <;> rfl
  | succ fuel ih =>
    cases left with
    | nil => cases fuel' <;> rfl
    | cons b left =>
      simp only [List.length_cons] at h h'
      obtain ⟨fuel', rfl⟩ : ∃ k, fuel' = k + 1 := ⟨fuel' - 1, by omega⟩
      have hrest : b8zsBlocks fuel left = b8zsBlocks fuel' left := ih (by omega) (by omega)
      have hdrop : b8zsBlocks fuel (left.drop 7) = b8zsBlocks fuel' (left.drop 7) :=
        ih (by simp; omega) (by simp; omega)
      simp only [b8zsBlocks, hrest, hdrop]

/-- The blocks from the next symbol on: one where eight zeros begin, and those after it (43_b8zs.md
R106). -/
theorem blocksLeft_cons :
    blocksLeft (b :: left) =
      if startsWithZeros 8 (b :: left) then 1 + blocksLeft (left.drop 7) else blocksLeft left := by
  have hdrop : b8zsBlocks left.length (left.drop 7) = blocksLeft (left.drop 7) :=
    b8zsBlocks_fuel (by simp) le_rfl
  rw [← hdrop]
  rfl

/-- With no symbol left no block is left. -/
theorem blocksLeft_nil : blocksLeft [] = 0 := rfl

/-- Eight zeros ahead are one block, and the rest is cut on from behind it (43_b8zs.md R106). -/
theorem blocksLeft_of_zeros (h : startsWithZeros 8 left = true) :
    blocksLeft left = 1 + blocksLeft (left.drop 8) := by
  cases left with
  | nil => simp [startsWithZeros] at h
  | cons b left => rw [blocksLeft_cons, if_pos h, List.drop_succ_cons]

/-- Zeros hold no marks. -/
theorem markCount_drop_of_zeros (h : startsWithZeros n left = true) :
    markCount (left.drop n) = markCount left := by
  have hnone : (left.take n).count .mark = 0 := by
    simp only [startsWithZeros, Bool.and_eq_true, List.all_eq_true, beq_iff_eq] at h
    exact List.count_eq_zero.2 fun hmem => by simpa using h.2 _ hmem
  conv_rhs => rw [markCount, ← List.take_append_drop n left, List.count_append, hnone, Nat.zero_add]
  rfl

/-- A step of the frame carries the counts on: a block is counted by a substitution, a mark by its own
step, and neither by a plain zero. -/
theorem State.ScansB8zs.committed (h : s.ScansB8zs bits j) (hframe : s.RunsFrame bits)
    (hi : selectStep s = .ok i) (hu : stepOutput i s = some u) :
    (s.committed u).ScansB8zs bits (j + 1) := by
  obtain ⟨hs, hsteps, n, hpol, hflips⟩ := h
  obtain ⟨b, hread, rfl⟩ := hframe.selectStep_b8zs hs hi
  have hflip : s.pol.flip = polAfterFlips (n + 1) := by rw [hpol, polAfterFlips_succ]
  split at hu
  · next hz =>
    have hblocks := blocksLeft_of_zeros hz
    have hmarks := markCount_drop_of_zeros hz
    rw [List.drop_drop] at hblocks hmarks
    cases hu
    refine ⟨hs, ?_, n + 1, hflip, ?_⟩ <;> simp only [State.committed_pos] <;> omega
  · next hz =>
    have hdrop := hframe.drop_pos hread
    have hblocks : blocksLeft (bits.drop s.pos) = blocksLeft (bits.drop (s.pos + 1)) := by
      rw [hdrop] at hz ⊢
      rw [blocksLeft_cons, if_neg hz]
    have hmarks : markCount (bits.drop s.pos) =
        markCount [b] + markCount (bits.drop (s.pos + 1)) := by
      rw [hdrop, markCount_cons]
    cases b with
    | mark =>
      rw [show markCount [.mark] = 1 from rfl] at hmarks
      cases hu
      refine ⟨hs, ?_, n + 1, hflip, ?_⟩ <;>
        simp only [State.committed_pos, State.plainOutput_stride] <;> omega
    | space =>
      rw [show markCount [.space] = 0 from rfl] at hmarks
      cases hu
      refine ⟨hs, ?_, n, hpol, ?_⟩ <;>
        simp only [State.committed_pos, State.plainOutput_stride] <;> omega

/-- A B8ZS frame begins with all its blocks and marks before it (10_state.md R21). -/
theorem State.ScansB8zs.begun (s : State) (bits : List Sym) : (s.begun 4 bits).ScansB8zs bits 0 :=
  ⟨rfl, rfl, 0, rfl, Nat.zero_add _⟩

/-- Where no symbol is left, the blocks and marks of the whole frame fix the number of its steps and the
polarity. -/
theorem State.ScansB8zs.at_end (h : s.ScansB8zs bits j) (hend : s.pos = bits.length) :
    j = bits.length - 7 * blocksLeft bits ∧
      s.pol = polAfterFlips (blocksLeft bits + markCount bits) := by
  obtain ⟨-, hsteps, n, hpol, hflips⟩ := h
  rw [hend, List.drop_length, blocksLeft_nil] at hsteps hflips
  exact ⟨by omega, hflips ▸ hpol⟩

end

/-- Settles O48: the frame computes the sample list of its scheme, which for B8ZS is the look-ahead
function. -/
theorem b8zsFrame : Obligations.B8zsFrame :=
  fun _ _ h => exists_runsToDone_samples (by decide) h

/-- Settles O49: every step carries on the counts of blocks and marks, from the START to `DONE`. -/
theorem b8zsStepCount : Obligations.B8zsStepCount := by
  intro s bits h
  obtain ⟨hstep, hframe⟩ := step_of_readyFor (by decide) h
  obtain ⟨k, t, hrun, hscan⟩ := hframe.exists_runsToDone (P := fun j r => r.ScansB8zs bits j)
    (fun _ _ _ _ hr hj hi hu _ => hj.committed hr hi hu) (.begun s bits)
  obtain ⟨hk, hpol⟩ := hscan.at_end (pos_of_runsToDone hrun)
  refine ⟨t, ?_, hpol⟩
  rw [Nat.add_comm, show bits.length - 7 * b8zsBlocks bits.length bits = k from
    (hk.symm.trans (Nat.zero_add k))]
  exact runsToDone_succ hstep ⟨hframe.busy, hframe.done⟩ hrun

end Sys2Proof.Machine
end

section
/-! The steps of HDB3 (44_hdb3.md R110 to R116): a mark or a counted zero writes its own bit-time, a
substitution the four that end at the scan position. -/

namespace Sys2Proof.Machine

section
variable {s : State} {b : Sym} {i : Instr} {u : UnitOutput} {l l' : Level} {p : Pol} {z : BitVec 2}
  {bal : Int} {c : Nat}

/-- What the row does that the symbol, the count and the balance select, where it writes the cells from
`c` up to the end of the scan position's bit-time (44_hdb3.md R110). -/
theorem hdb3Step (h : s.inFrame 5) (hrow : hdb3StepOf b s.zcnt s.bal = i)
    (hexec : exec i s = mux 5 u s) (hcell : u.write.cell = (c : Int))
    (hreaches : 2 * s.pos + 2 = c + u.write.levels.length) :
    exec i s = .next (s.committed u) ∧ (s.atSymbol b → step s = .next (s.committed u)) ∧
      (∀ j < u.write.levels.length, (s.committed u).obuf.read (c + j) = u.write.levels[j]?) ∧
      s.stepFrame (s.committed u) u.stride c (2 * s.pos + 2) := by
  have ⟨hbusy, hs, hp⟩ := h
  obtain ⟨hmux, hframe, hcells⟩ := mux_inFrame h hcell hreaches (by omega)
  have hnext := hexec.trans hmux
  refine ⟨hnext, fun ⟨hedges, hread⟩ => ?_, hcells, hframe⟩
  exact (step_of_selected hedges hbusy (hrow ▸ selectStep_hdb3 hs hp hread)).trans hnext

/-- What a row does that holds one level at the scan position (44_hdb3.md R111, R112). -/
theorem hdb3HeldStep (h : s.inFrame 5) (hrow : hdb3StepOf b s.zcnt s.bal = i)
    (hexec : exec i s =
      mux 5 { s.plainOutput (emitHeld s.pos l) with bal := bal, pol := p, zcnt := z } s) :
    ∃ t, exec i s = .next t ∧ (s.atSymbol b → step s = .next t) ∧
      t.obuf.read (2 * s.pos) = some l ∧ t.obuf.read (2 * s.pos + 1) = some l ∧
      t.bal = bal ∧ t.pol = p ∧ t.zcnt = z ∧ s.stepFrame t 1 (2 * s.pos) (2 * s.pos + 2) := by
  obtain ⟨hnext, hstep, hcells, hframe⟩ := hdb3Step h hrow hexec (c := 2 * s.pos) rfl rfl
  exact ⟨_, hnext, hstep, hcells 0 Nat.two_pos, hcells 1 Nat.one_lt_two, rfl, rfl, rfl, hframe⟩

/-- What a substitution does that puts `l` in the first of its four bit-times and the violation `l'` in
the last (44_hdb3.md R113, R114). -/
theorem hdb3BlockStep (h : s.inFrame 5) (hbehind : 3 ≤ s.pos)
    (hrow : hdb3StepOf .space s.zcnt s.bal = i)
    (hexec : exec i s = mux 5 { s.plainOutput (emitBlock (s.pos - 3) [l, .zero, .zero, l']) with
      bal := bal, pol := p, zcnt := 0 } s) :
    ∃ t, exec i s = .next t ∧ (s.atSymbol .space → step s = .next t) ∧
      (∀ k < 8, t.obuf.read (2 * (s.pos - 3) + k) = [l, .zero, .zero, l'][k / 2]?) ∧
      t.obuf.read (2 * s.pos) = some l' ∧ t.obuf.read (2 * s.pos + 1) = some l' ∧
      t.bal = bal ∧ t.pol = p ∧ t.zcnt = 0 ∧
      s.stepFrame t 1 (2 * (s.pos - 3)) (2 * s.pos + 2) := by
  have hcell : 2 * ((s.pos : Int) - 3) = (2 * (s.pos - 3) : Nat) := by omega
  have hlast : 2 * s.pos = 2 * (s.pos - 3) + 6 := by omega
  obtain ⟨hnext, hstep, hcells, hframe⟩ := hdb3Step h hrow hexec hcell
    (show 2 * s.pos + 2 = 2 * (s.pos - 3) + 8 by omega)
  refine ⟨_, hnext, hstep, fun k hk => (hcells k hk).trans (dbl_getElem? _ k), ?_, ?_, rfl, rfl, rfl,
    hframe⟩
  · rw [hlast]; exact hcells 6 (show 6 < 8 by decide)
  · rw [hlast]; exact hcells 7 (show 7 < 8 by decide)

/-- With a negative balance the pulses of a B00V are -1, so that `BAL` is kept and `POL` becomes +1
(44_hdb3.md R116). -/
theorem exec_hdb3SubstB00V_of_neg (hbal : s.bal < 0) :
    exec .hdb3SubstB00V s =
      mux 5 { s.plainOutput (emitBlock (s.pos - 3) [.minus, .zero, .zero, .minus]) with
        bal := s.bal, pol := .plus, zcnt := 0 } s := by
  have hv : b00vPulse s.bal = .minus := if_pos (by omega)
  have hkept : s.bal + Pol.minus.toInt - Pol.minus.toInt = s.bal := by omega
  obtain ⟨u, hu, hexec⟩ := exec_of_unitOf (i := .hdb3SubstB00V) rfl s
  simp only [stepOutput, hv, hkept] at hu
  cases hu
  exact hexec

end

/-- Settles O12: a mark is selected whatever the count and the balance, and holds the old `POL`. -/
theorem hdb3MarkStep : Obligations.Hdb3MarkStep :=
  fun _ h => hdb3HeldStep (b := .mark) h rfl rfl

/-- Settles O13: a count below 3 selects the plain zero, and is counted on without wrapping. -/
theorem hdb3ZeroStep : Obligations.Hdb3ZeroStep := by
  intro s h hcount
  have hz : s.zcnt ≠ 3 := fun hz => by simp [hz] at hcount
  obtain ⟨t, hexec, hstep, hfirst, hsecond, hbal, hpol, hzcnt, hframe⟩ :=
    hdb3HeldStep (b := .space) (i := .hdb3Zero) h (if_neg hz) rfl
  exact ⟨t, hexec, hstep, hfirst, hsecond, hzcnt ▸ toNat_zcnt_succ s.zcnt hz, hpol, hbal, hframe⟩

/-- Settles O14: a balance of 0 or more, the tie included, selects this block of a single pulse. -/
theorem hdb3Substitution000V : Obligations.Hdb3Substitution000V := by
  intro s h hz hbal hbehind
  obtain ⟨t, hexec, hstep, hcells, hlast⟩ := hdb3BlockStep (i := .hdb3Subst000V) h hbehind
    ((if_pos hz).trans (if_neg (Int.not_lt.2 hbal))) rfl
  refine ⟨t, hexec, hstep, fun k hk => (hcells k (by omega)).trans ?_, hlast⟩
  interval_cases k <;> rfl

/-- Settles O15: a negative balance selects this block of two pulses, both of them -1. -/
theorem hdb3SubstitutionB00V : Obligations.Hdb3SubstitutionB00V := by
  intro s h hz hbal hbehind
  obtain ⟨t, hexec, hstep, hcells, hlast⟩ := hdb3BlockStep (i := .hdb3SubstB00V) h hbehind
    ((if_pos hz).trans (if_pos hbal)) (exec_hdb3SubstB00V_of_neg hbal)
  refine ⟨t, hexec, hstep, hcells 0 (by decide), hcells 1 (by decide), fun k hk => ?_, hlast⟩
  rw [Nat.add_assoc]
  refine (hcells (2 + k) (by omega)).trans ?_
  interval_cases k <;> rfl

/-- Settles O44: the output of the selected step keeps the range, and a step in a frame commits it. -/
theorem hdb3BalanceRange : Obligations.Hdb3BalanceRange := by
  intro s t i ⟨hbusy, hs, _⟩ habs hok hi hexec
  obtain ⟨u, hu, hmux⟩ := exec_of_unitOf (unitOf_of_selectStep hi) s
  rw [hmux, mux_selected u hbusy rfl] at hexec
  obtain ⟨rfl, -⟩ := commit_next hexec
  obtain ⟨habs', hok'⟩ := balance_of_stepOutput hs hi hu habs hok
  have hlowest : -2 ≤ u.bal := by omega
  exact ⟨habs', hok', hlowest⟩

/-- Settles O50: every step consumes one symbol and carries the sample list on, which for HDB3 is the
look-ahead function: the counted zeros stay open to a substitution until the list has settled them
(`State.Computes`). -/
theorem hdb3Frame : Obligations.Hdb3Frame := by
  intro s bits h
  obtain ⟨t, hrun, hlength, hsamples, -⟩ := runsToDone_samples (scheme := 5) (P := fun _ => True)
    (by decide) (by decide) h trivial (fun _ _ _ _ _ _ _ _ => trivial)
  exact ⟨t, hrun, hlength, hsamples⟩

end Sys2Proof.Machine
end

section
/-! The error entry of a START, and the refusals of malformed input (60_exceptions.md R131 to R133). -/

namespace Sys2Proof.Machine

section
variable {s : State} {e : Edge} {i : Instr} {rest : List Edge} {w : SymbolWrite} {len : Nat}

/-- The rows of the six schemes are the STARTs of valid scheme codes (30_encoding.md R51). -/
theorem exec_validRow (s : State)
    (hi : i ∈ [Instr.unipolar len, .nrzL len, .nrzI len, .manchester len, .b8zs len, .hdb3 len]) :
    ∃ c : BitVec 3, c.toNat < 6 ∧ exec i s = start c len s := by
  simp only [List.mem_cons, List.not_mem_nil, or_false] at hi
  rcases hi with rfl | rfl | rfl | rfl | rfl | rfl <;> exact ⟨_, by decide, rfl⟩

/-- A START of a valid scheme and a length above 0 is refused where a cell of its frame has no value
(60_exceptions.md R132). -/
theorem start_of_unwritten {c : BitVec 3} (hb : s.busy = false) (hv : c.toNat < 6) (hlen : len ≠ 0)
    (hw : ¬cellsWritten s.ibuf len) : start c len s = .refused .ibufUnwritten := by
  have hvalid : validScheme c = true := by simpa [validScheme] using hv
  have hframe : ¬s.frameWritten len = true := fun h => hw (frameWritten_iff.1 h)
  simp [start, hb, hvalid, hlen, hframe]

/-- While `BUSY = 1` the write of a cell at an edge is refused, whatever the edge reads of OBUF
(20_memory.md R40). -/
theorem edgeWrite_of_busy (hb : s.busy = true) (hw : e.ibufWrite = some w)
    (hcell : w.addr < s.maxLen) :
    edgeWrite e (edgeRead e { s with edges := rest }) =
      .error (.refused .ibufWriteWhileBusy) := by
  have hread := hostAccess_edgeRead e s rest
  obtain ⟨hbusy, -⟩ := hread.flags
  have hcell' : w.addr < (edgeRead e { s with edges := rest }).maxLen := by
    rwa [State.maxLen, hread.lenw]
  simp only [edgeWrite, hw, hostWriteIbuf_of_busy hcell' (hbusy.trans hb)]

end

/-- Settles O4: the six rows are STARTs of valid schemes, which examine the length before IBUF; and a
write that is refused stops the edge that carries it. -/
theorem malformedInputIsRefused : Obligations.MalformedInputIsRefused := by
  refine ⟨fun s hb i hi => ?_, fun s len j hb hj hnone i hi => ?_, ?_⟩
  · obtain ⟨c, hv, hexec⟩ := exec_validRow s hi
    exact hexec.trans (start_of_empty hb hv)
  · obtain ⟨c, hv, hexec⟩ := exec_validRow s hi
    have hunwritten : ¬cellsWritten s.ibuf len := fun hw => by simpa [hnone] using hw j hj
    exact hexec.trans (start_of_unwritten hb hv (Nat.ne_zero_of_lt hj) hunwritten)
  · intro s e rest w hb hedges hfits hrst hw hcell
    have hfetch := fetch_of_edgeWrite_error hedges hfits hrst (edgeWrite_of_busy hb hw hcell)
    simp only [step, hfetch]

/-- Settles O2: both codes are above those of the schemes, so that neither START examines its length or
IBUF. -/
theorem invalidSchemeIdEntry : Obligations.InvalidSchemeIdEntry :=
  fun _ _ hb => ⟨start_of_invalid hb (by decide), start_of_invalid hb (by decide)⟩

end Sys2Proof.Machine
end

section
/-! Reset and the hazards of one edge (70_reset_and_hazards.md R150 to R158): a reset wins over all else, a
host that keeps its duties is never refused, and samples behind the scan position are final. -/

namespace Sys2Proof.Machine

section
variable {s r t u : State} {e : Edge} {rest : List Edge} {i : Instr} {c : BitVec 3} {k n : Nat}

/-! ## The duties of the host (R152, R156) -/

/-- While the host writes cells only in an idle block, the accesses of an edge complete
(20_memory.md R40). -/
theorem exists_edgeWrite (hidle : ∀ w, e.ibufWrite = some w → w.addr < s.maxLen → s.busy = false) :
    ∃ u, edgeWrite e (edgeRead e { s with edges := rest }) = .ok u := by
  obtain ⟨d, m, hread⟩ := edgeRead_frame e { s with edges := rest }
  rw [hread]
  cases hw : e.ibufWrite with
  | none =>
    simp only [edgeWrite, hw]
    exact ⟨_, rfl⟩
  | some w =>
    simp only [edgeWrite, hw]
    by_cases hcell : w.addr < s.maxLen
    · exact ⟨_, hostWriteIbuf_of_idle hcell (hidle w hw hcell)⟩
    · exact ⟨_, hostWriteIbuf_of_no_cell (Nat.not_lt.1 hcell)⟩

/-- After the accesses of an edge a cell of IBUF has a value if it had one, or if the edge wrote it. -/
theorem read_isSome_of_edgeWrite
    (haccess : edgeWrite e (edgeRead e { s with edges := rest }) = .ok u) (hcell : n < s.maxLen)
    (hwritten : (s.ibuf.read n).isSome = true ∨ ∃ w, e.ibufWrite = some w ∧ w.addr = n) :
    (u.ibuf.read n).isSome = true := by
  obtain ⟨d, m, hread⟩ := edgeRead_frame e { s with edges := rest }
  rw [hread] at haccess
  cases hw : e.ibufWrite with
  | none =>
    simp only [edgeWrite, hw] at haccess
    cases haccess
    simpa [hw] using hwritten
  | some w =>
    simp only [edgeWrite, hw] at haccess
    have hwritten : (s.ibuf.read n).isSome = true ∨ w.addr = n := by simpa [hw] using hwritten
    rcases hostWriteIbuf_ok haccess with ⟨-, -, rfl⟩ | ⟨hbeyond, rfl⟩
    · rw [Memory.read_write]
      split_ifs with haddr
      · rfl
      · exact hwritten.resolve_right haddr
    · have hbeyond : s.maxLen ≤ w.addr := hbeyond
      exact hwritten.resolve_right (by omega)

/-- The frame of a START whose symbols are all written, the write on its own edge included, is there
after the accesses of that edge (40_mux_and_common.md R78). -/
theorem cellsWritten_of_edgeWrite
    (haccess : edgeWrite e (edgeRead e { s with edges := rest }) = .ok u) (hn : n < 2 ^ s.lenw)
    (hwritten : ∀ j < n, (s.ibuf.read j).isSome = true ∨ ∃ w, e.ibufWrite = some w ∧ w.addr = j) :
    cellsWritten u.ibuf n := fun j hj =>
  read_isSome_of_edgeWrite haccess (Nat.lt_of_lt_of_le hj (Nat.le_sub_one_of_lt hn)) (hwritten j hj)

/-- A START completes if it is dropped, or has no scheme, or has a frame that is there to encode
(60_exceptions.md R132). -/
theorem exists_start (hduty : s.busy = false → c.toNat < 6 → 1 ≤ n ∧ cellsWritten s.ibuf n) :
    ∃ t, start c n s = .next t := by
  by_cases hb : s.busy = true
  · exact ⟨_, start_of_busy hb⟩
  have hb : s.busy = false := Bool.eq_false_iff.2 hb
  by_cases hv : c.toNat < 6
  · obtain ⟨hn, hw⟩ := hduty hb hv
    exact ⟨_, start_accepted hb hv hn hw⟩
  · exact ⟨_, start_of_invalid hb (Nat.not_lt.1 hv)⟩

/-- A running frame always has a step to select, and the step completes (40_mux_and_common.md R83). -/
theorem State.Inv.exists_exec_selected (h : s.Inv) (hb : s.busy = true) :
    ∃ i t, selectStep s = .ok i ∧ exec i s = .next t := by
  obtain ⟨hv, hp, hw, -⟩ := h.frame hb
  obtain ⟨i, hi⟩ := exists_selectStep hv hw hp
  obtain ⟨u, -, -, hexec⟩ := h.exec_selected hb hi
  exact ⟨i, _, hi, hexec⟩

/-! ## The cells that a running frame leaves alone (R154) -/

/-- No access of the host moves the scan position (10_state.md R14). -/
theorem State.HostAccess.pos (h : s.HostAccess r) : r.pos = s.pos := by
  obtain ⟨edges, m, d, n, -, rfl⟩ := h
  rfl

/-- Every unit writes from the scan position on, but for HDB3, whose blocks start three bit-times before
it (40_mux_and_common.md R76; 44_hdb3.md R113). -/
theorem cell_of_stepOutput {unit : BitVec 3} {u : UnitOutput} (hi : unitOf i = some unit)
    (hu : stepOutput i s = some u) :
    2 * (s.pos : Int) - 6 ≤ u.write.cell ∧ (unit ≠ 5 → u.write.cell = 2 * s.pos) := by
  have held : 2 * (s.pos : Int) - 6 ≤ 2 * s.pos := by omega
  have block : 2 * (s.pos : Int) - 6 ≤ 2 * (s.pos - 3) := by omega
  cases i with
  | unipolar _ | nrzL _ | nrzI _ | manchester _ | b8zs _ | hdb3 _ | illegal6 _ | illegal7 _ => cases hi
  | unipolarMark | unipolarZero | nrzLMark | nrzLZero | nrzIMark | nrzIZero | manchesterMark
  | manchesterZero | b8zsSubst | b8zsMark | b8zsZero | hdb3Mark | hdb3Zero =>
    cases hu; exact ⟨held, fun _ => rfl⟩
  | hdb3Subst000V | hdb3SubstB00V =>
    cases hi; cases hu; exact ⟨block, fun h => absurd rfl h⟩

/-- A cell that no step of a running frame writes: before the block that HDB3 may still rewrite, behind
the scan position in another scheme, or beyond the frame. -/
def State.cellIsFinal (s : State) (k : Nat) : Prop :=
  k + 6 < 2 * s.pos ∨ (s.scheme ≠ 5 ∧ k < 2 * s.pos) ∨ 2 * s.len ≤ k

/-- The block of a selected step holds no final cell. -/
theorem UnitOutput.Advances.read_committed_final {u : UnitOutput} (hadv : u.Advances s)
    (hi : selectStep s = .ok i) (hu : stepOutput i s = some u) (hk : s.cellIsFinal k) :
    (s.committed u).obuf.read k = s.obuf.read k := by
  obtain ⟨hlow, hahead⟩ := cell_of_stepOutput (unitOf_of_selectStep hi) hu
  have hnonneg := hadv.cell_nonneg
  have hreaches := hadv.reaches
  have hinside := hadv.inside
  rw [State.committed_obuf, Memory.read_writeList, if_neg]
  rcases hk with hbefore | ⟨hne, hbehind⟩ | hbeyond
  · omega
  · have hcell := hahead hne
    omega
  · omega

/-- While a frame runs, a step without `rst` leaves every final cell as it was: the accesses of the host
and a dropped START touch no sample. -/
theorem State.Inv.read_final (h : s.Inv) (hb : s.busy = true)
    (hrst : ∀ e ∈ s.edges.head?, e.rst = false) (hstep : step s = .next t) (hk : s.cellIsFinal k) :
    t.obuf.read k = s.obuf.read k := by
  obtain ⟨r, hr, hrun⟩ := step_cases_of_no_rst hrst hstep
  obtain ⟨hscheme, hlen, hobuf⟩ := hr.frame
  obtain ⟨hbusy, -⟩ := hr.flags
  have hrb : r.busy = true := hbusy.trans hb
  have hk : r.cellIsFinal k := by rwa [State.cellIsFinal, hr.pos, hscheme, hlen]
  rw [← hobuf]
  rcases hrun with rfl | ⟨-, i, hi, hexec⟩ | ⟨e, -, c, -, hstart⟩
  · rfl
  · obtain ⟨u, hu, hadv, hcommit⟩ := (h.of_hostAccess hr).exec_selected hrb hi
    cases hcommit.symm.trans hexec
    exact hadv.read_committed_final hi hu hk
  · rw [start_obuf hstart]

end

/-- Settles O27: the read of OBUF, which alone comes before the reset, changes no register, and the reset
leaves the block idle. -/
theorem resetEdgeWins : Obligations.ResetEdgeWins := by
  intro s e rest hedges hfits hrst
  obtain ⟨d, n, hread⟩ := edgeRead_frame e { s with edges := rest }
  rw [step_of_resetEdge hedges hfits hrst, hread]
  exact ⟨_, rfl, rfl, rfl, rfl, rfl, rfl, rfl, rfl, rfl, rfl, rfl, fun _ => rfl, fun _ => rfl, rfl, rfl,
    fun hrest => step_idle hrest rfl⟩

/-- Settles O36: with the duties kept the accesses of an edge complete, and so does what the edge runs
after them, the selected step or the START. -/
theorem dutifulHostIsNeverRefused : Obligations.DutifulHostIsNeverRefused := by
  intro s h hduties
  unfold State.dutiesKept at hduties
  split at hduties
  · next hedges =>
    by_cases hb : s.busy = true
    · obtain ⟨i, t, hi, hexec⟩ := h.exists_exec_selected hb
      exact ⟨t, (step_of_selected hedges hb hi).trans hexec⟩
    · exact ⟨s, step_idle hedges (Bool.eq_false_iff.2 hb)⟩
  next e rest hedges =>
  obtain ⟨hfits, hduties⟩ := hduties
  by_cases hrst : e.rst = true
  · exact ⟨_, step_of_resetEdge hedges hfits hrst⟩
  have hrst : e.rst = false := Bool.eq_false_iff.2 hrst
  obtain ⟨hidle, hframe⟩ := hduties hrst
  obtain ⟨u, haccess⟩ := exists_edgeWrite (rest := rest) hidle
  have hr := hostAccess_edgeWrite haccess
  by_cases hends : u.busy = true ∧ e.stepEnds = true
  · obtain ⟨i, t, hi, hexec⟩ := (h.of_hostAccess hr).exists_exec_selected hends.1
    obtain ⟨-, -, hruns⟩ := stepExecutesFetchedInstruction
    exact ⟨t, (hruns s u e rest i hedges hfits hrst haccess hends.1 hends.2 hi).trans hexec⟩
  obtain ⟨hnone, hsome⟩ := step_of_portsEdge hedges hfits hrst haccess hends
  cases hcmd : e.cmd with
  | none => exact ⟨u, hnone hcmd⟩
  | some c =>
    rw [hsome c hcmd, exec_startInstr]
    refine exists_start fun hb hv => ?_
    obtain ⟨hbusy, -⟩ := hr.flags
    obtain ⟨hn, hwritten⟩ := hframe c hcmd (hbusy.symm.trans hb) hv
    exact ⟨hn, cellsWritten_of_edgeWrite haccess (len_lt_of_fits hfits hcmd) hwritten⟩

/-- Settles O42: the cells of each clause are final, and no step writes a final cell. -/
theorem samplesBehindScanAreFinal : Obligations.SamplesBehindScanAreFinal := by
  intro s t h hb hrst hstep
  have hkept {k : Nat} (hk : s.cellIsFinal k) := h.read_final hb hrst hstep hk
  exact ⟨fun j hj => ⟨hkept (.inl (by omega)), hkept (.inl (by omega))⟩,
    fun hs k hk => hkept (.inr (.inl ⟨hs, hk⟩)), fun k hk => hkept (.inr (.inr hk))⟩

end Sys2Proof.Machine
end
